-- ==== Sys2Proof/Syntax.lean ====
section
/-! DEFINITION. The instructions: one constructor per row of spec/opcode_table.json (30_encoding.md R71). -/

namespace Sys2Proof

/-- The four commands. `dflt` is bit 2 of the command word (R70): true selects the codec's default table,
false the `tbl` port (R72). The table and the input are port operands, not fields of the word (R70). -/
inductive Instr where
  /-- R100: `d00`, base16.encode on unit U0. -/
  | b16enc (dflt : Bool)
  /-- R111: `d01`, base16.decode on unit U1. -/
  | b16dec (dflt : Bool)
  /-- R126: `d10`, base64.encode on unit U2. -/
  | b64enc (dflt : Bool)
  /-- R141: `d11`, base64.decode on unit U3. -/
  | b64dec (dflt : Bool)
deriving DecidableEq, Repr

end Sys2Proof
end

