-- ==== Sys2Proof/Word.lean ====
section
/-! DEFINITION. The value types of 00_scope.md rule R8. All values are unsigned (R7). -/

namespace Sys2Proof

/-- R8: an unsigned 8-bit number. -/
abbrev Byte := BitVec 8

/-- R8: a nibble, an unsigned 4-bit number. -/
abbrev Nib := BitVec 4

/-- R8: a sextet, an unsigned 6-bit number. -/
abbrev Sext := BitVec 6

/-- R52, R80: the 24-bit value of one base64 group. -/
abbrev Group24 := BitVec 24

/-- R8: a symbol is a code point; it is only ever compared for equality and stored in tables, so it is a
number and not a bit vector. Its width SYM_W is the parameter `Config.Params.symW` (R6, D3, log 1). -/
abbrev Sym := Nat

/-- R70: the command word cmd[2:0]. -/
abbrev CmdWord := BitVec 3

end Sys2Proof
end

