-- ==== Sys2Proof/Decode.lean ====
section
/-! DEFINITION. The decoder and the encoder of the command word (30_encoding.md R70, R71). -/

namespace Sys2Proof

/-- R70: cmd[2] = dflt. -/
def cmdDflt (c : CmdWord) : Bool := c.getLsbD 2

/-- R70: cmd[1] = codec, 0 base16, 1 base64. -/
def cmdCodec (c : CmdWord) : Bool := c.getLsbD 1

/-- R70: cmd[0] = dir, 0 encode, 1 decode. -/
def cmdDir (c : CmdWord) : Bool := c.getLsbD 0

/-- R71: `cmd[1:0]` selects the operation; all four values are used, so decoding a command word is total. -/
def decodeCmd (c : CmdWord) : Instr :=
  match cmdCodec c, cmdDir c with
  | false, false => .b16enc (cmdDflt c)
  | false, true => .b16dec (cmdDflt c)
  | true, false => .b64enc (cmdDflt c)
  | true, true => .b64dec (cmdDflt c)

/-- Why a number is not a command. -/
inductive DecodeError where
  /-- R70: a command is "always 3 bits long"; the number has a set bit above bit 2, so no command word is it
  (safe: no meaning is given to it). -/
  | widerThanThreeBits
deriving DecidableEq, Repr

/-- R70: the instruction of a number offered as a command word: total, and rejecting by name what has more
than three bits (log 8). -/
def decodeWord (w : Nat) : Except DecodeError Instr :=
  if w < 8 then .ok (decodeCmd (BitVec.ofNat 3 w)) else .error .widerThanThreeBits

/-- A command word from its three fields (R70). -/
def cmdOf (dflt codec dir : Bool) : CmdWord :=
  BitVec.ofNat 3 ((if dflt then 4 else 0) + (if codec then 2 else 0) + (if dir then 1 else 0))

/-- R70, R71: the command word of an instruction. -/
def encode : Instr → CmdWord
  | .b16enc d => cmdOf d false false
  | .b16dec d => cmdOf d false true
  | .b64enc d => cmdOf d true false
  | .b64dec d => cmdOf d true true

/-- The decoder on the numbering of spec/opcode_table.json: bit 0 of `w` is cmd[0]. A command is one word of
three bits (R70, R82), so the bits above `nbits` are zero and `nbits` itself is not read. -/
def decodeTableWord (_nbits w : Nat) : Option Instr :=
  match decodeWord w with
  | .ok i => some i
  | .error _ => none

end Sys2Proof
end

