-- ==== Sys2Proof/Config.lean ====
section
/-! DEFINITION. What an implementation fixes (the OPEN parameters of 00_scope.md rule R6) and the model's
one free value (the choice of the next unit, 44_control.md rule R168). -/

namespace Sys2Proof.Config

/-- The OPEN parameters of R6, each "a named parameter the model takes as an argument". `none` is the
abstract model's value: no bound. `State.params` holds them, no step changes them, and every statement holds
for every value of them (DESIGN CHOICE, log 1). XPORT is left out: no rule reads it (R6). -/
structure Params where
  /-- SYM_W, the width of a symbol in bits (D3). -/
  symW : Option Nat
  /-- MAX_LEN, the largest input length a unit accepts (D4). -/
  maxLen : Option Nat
  /-- TMAX, the largest table length the table port carries (D5). -/
  tmax : Option Nat
deriving DecidableEq, Repr

/-- R6: "the abstract model takes unbounded sequences (MAX_LEN = infinity)", "any finite sequence", and D3:
generic in the symbol type. -/
def Params.abstract : Params := { symW := none, maxLen := none, tmax := none }

/-- FREE VALUE (log 5). R168: "The spec fixes no order between units". Which of several BUSY units acts when
no move is listed. It has no body: nothing can be proved of its values. -/
opaque freeChoice : Nat → Nat

end Sys2Proof.Config
end

