-- ==== Sys2Proof/Machine/State.lean ====
section
/-! DEFINITION. The state of CORE: the four unit records of 10_state.md R21, the host's input signals of R35,
and the model's own fields (the moves to come, the free choice's counter, the RESET mark, the parameters). -/

namespace Sys2Proof.Machine

/-- R22: the three phases of a unit. (R31 numbers them 0, 1, 2; value 3 never occurs.) -/
inductive Phase where
  | idle
  | busy
  | done
deriving DecidableEq, Repr

/-- R182: the cause codes. `reasonCode` in Flags.lean gives the 3-bit numbers. -/
inductive Reason where
  /-- 0 -/
  | ok
  /-- 1 -/
  | emptyInput
  /-- 2 -/
  | tableLength
  /-- 3 -/
  | tableDuplicate
  /-- 4 -/
  | inputLength
  /-- 5 -/
  | padding
  /-- 6 -/
  | unknownSymbol
deriving DecidableEq, Repr

/-- R2: the four units, identifiers 0 to 3 (R193). -/
inductive UnitId where
  | u0
  | u1
  | u2
  | u3
deriving DecidableEq, Repr

/-- R21: the fields of a unit record that can be invalid. -/
inductive Field where
  | T
  | IN
  | pos
  | ngran
  | OUT
  | RLUT
  | npad
  | RES
  | reason
deriving DecidableEq, Repr

/-- R140: what the reverse lookup of a base64 table gives: a sextet (index 0 to 63), or the padding sentinel
(index 64). R140 allows the separate constructor: "no arithmetic is ever done on the sentinel". -/
inductive SymVal where
  | data (v : Sext)
  | pad
deriving DecidableEq, Repr

/-- R21: the fields every unit has; `α` is the input element, `β` the output element. `none` is the spec's
"invalid: holds no value" (R29). -/
structure UnitRec (α β : Type) where
  phase : Phase
  T : Option (List Sym)
  IN : Option (List α)
  pos : Option Nat
  ngran : Option Nat
  OUT : Option (List β)
  RES : Option (List β)
  reason : Option Reason
deriving DecidableEq, Repr

/-- R21: an encoder's record (U0, U2); it has no RLUT (C5). -/
abbrev EncUnit := UnitRec Byte Sym

/-- R21: a decoder's record with its reverse lookup, a partial map from symbols to `ν` held as the list of its
pairs in table order (R27, R110). -/
structure DecUnit (ν : Type) extends UnitRec Sym Byte where
  RLUT : Option (List (Sym × ν))
deriving DecidableEq, Repr

/-- R21: U1's record. -/
abbrev Dec16Unit := DecUnit Nib

/-- R21: U3's record, with the padding count npad (R142), 0 to 2 (R31). -/
structure Dec64Unit extends DecUnit SymVal where
  npad : Option (Fin 3)
deriving DecidableEq, Repr

/-- R35: the input signals, as levels in one host move. -/
structure Ports where
  reset : Bool
  cmdValid : Bool
  cmd : CmdWord
  tbl : List Sym
  inB : List Byte
  inS : List Sym
  ack0 : Bool
  ack1 : Bool
  ack2 : Bool
  ack3 : Bool
deriving DecidableEq, Repr

/-- R171: "A run is a finite sequence of host actions interleaved with unit actions". A host move is the levels
of the input signals in one step (R172); a unit move offers unit `u` its STEP or FINISH (R160). -/
inductive Move where
  | host (p : Ports)
  | unit (u : UnitId)
deriving DecidableEq, Repr

/-- The state of CORE (R160: the four unit records) and of the model around it. -/
structure State where
  u0 : EncUnit
  u1 : Dec16Unit
  u2 : EncUnit
  u3 : Dec64Unit
  /-- R35: the input signals, as the last host move set them. -/
  ports : Ports
  /-- The moves to come, next first (the model's own field, log 4). -/
  run : List Move
  /-- The counter the free choice reads (the model's own field, log 5). -/
  turns : Nat
  /-- R201: whether RESET has happened since power-up (the model's own field, log 6). -/
  wasReset : Bool
  /-- R6: the OPEN parameters (the model's own field, log 1). -/
  params : Config.Params
deriving DecidableEq, Repr

/-- What stops the machine with a fault. No rule of the spec reads such a value, and R29 asks that a model make
the read a fault; every one is SAFE. -/
inductive Fault where
  /-- R29: a unit action of `u` reads field `f` while it is invalid. Raised by the unit actions. Safe. -/
  | invalidRead (u : UnitId) (f : Field)
  /-- R9, R29: a unit action of `u` reads storage `f` at or beyond its length. Raised by the unit actions. Safe. -/
  | indexOutOfRange (u : UnitId) (f : Field)
  /-- R9, R51: a MemWrite of `u` that does not append the granule's elements at the end of OUT. Raised by the
  granule steps. Safe. -/
  | notAnAppend (u : UnitId)
  /-- R24: pos beyond ngran, which "never skips". Raised by the unit actions. Safe. -/
  | posBeyondEnd (u : UnitId)
deriving DecidableEq, Repr

/-- What a step gives no meaning to. -/
inductive Refusal where
  /-- An instruction without a meaning yet: no arm of this model answers it. Safe. -/
  | notModelled (mnemonic : String)
  /-- R212, U10: "no claim is made about a run that does not begin with RESET": any move before the first RESET
  but one that asserts `reset`. Raised by step and by the four commands. Safe. -/
  | beforeReset
  /-- R212, U7: an input longer than a finite MAX_LEN. Raised by the four commands. Safe. -/
  | inputTooLong
  /-- R212: a table longer than a finite TMAX. Raised by the four commands with dflt = 0. Safe. -/
  | tableTooLong
  /-- U16: a symbol that SYM_W bits cannot carry. Raised by B16DEC and B64DEC, and by the four commands with
  dflt = 0. Safe. -/
  | symbolTooWide
deriving DecidableEq, Repr

/-- R34: phase IDLE and every other field invalid. -/
def UnitRec.idle {α β : Type} : UnitRec α β :=
  { phase := .idle, T := none, IN := none, pos := none, ngran := none, OUT := none, RES := none, reason := none }

/-- R34, for a decoder. -/
def DecUnit.idle {ν : Type} : DecUnit ν := { toUnitRec := UnitRec.idle, RLUT := none }

/-- R34, for U3. -/
def Dec64Unit.idle : Dec64Unit := { toDecUnit := DecUnit.idle, npad := none }

/-- The input signals before the host drives any (DESIGN CHOICE, log 2: the spec gives them no value). -/
def Ports.quiet : Ports :=
  { reset := false, cmdValid := false, cmd := 0, tbl := [], inB := [], inS := [],
    ack0 := false, ack1 := false, ack2 := false, ack3 := false }

/-- R34: the machine right after RESET. -/
def State.reset : State :=
  { u0 := UnitRec.idle, u1 := DecUnit.idle, u2 := UnitRec.idle, u3 := Dec64Unit.idle,
    ports := Ports.quiet, run := [], turns := 0, wasReset := true, params := Config.Params.abstract }

end Sys2Proof.Machine
end

