-- ==== Sys2Proof/Machine/Operands.lean ====
section
/-! DEFINITION. Operands and datapath: the default tables, the table and input operands of a START, the forward
and reverse lookups, and the bit layouts of bytes and groups (30_encoding.md, 20_memory.md). -/

namespace Sys2Proof.Machine

/-! ## Tables -/

/-- R75: `0123456789ABCDEF`, as code points. -/
def defaultB16 : List Sym := List.range' 0x30 10 ++ List.range' 0x41 6

/-- R76: `A` to `Z`, `a` to `z`, `0` to `9`, `+`, `/`, and `=` at index 64, as code points. -/
def defaultB64 : List Sym :=
  List.range' 0x41 26 ++ List.range' 0x61 26 ++ List.range' 0x30 10 ++ [0x2B, 0x2F, 0x3D]

/-- R74: the entries are pairwise distinct. -/
def distinct : List Sym → Bool
  | [] => true
  | x :: xs => !xs.contains x && distinct xs

/-- R72: the table operand of a base16 command. -/
def tableOperand16 (dflt : Bool) (p : Ports) : List Sym := if dflt then defaultB16 else p.tbl

/-- R72: the table operand of a base64 command. -/
def tableOperand64 (dflt : Bool) (p : Ports) : List Sym := if dflt then defaultB64 else p.tbl

/-! ## What the ports can carry (R6, R212, U7, U16) -/

/-- A length within an OPEN bound. -/
def lenFits (bound : Option Nat) (n : Nat) : Bool :=
  match bound with
  | none => true
  | some b => decide (n ≤ b)

/-- R8: a symbol is an unsigned SYM_W-bit number. -/
def symFits (pr : Config.Params) (x : Sym) : Bool :=
  match pr.symW with
  | none => true
  | some w => decide (x < 2 ^ w)

/-- Why the table port cannot carry this table; with `dflt = 1` the port is not read (R72, U11). -/
def tableRefusal (pr : Config.Params) (dflt : Bool) (tbl : List Sym) : Option Refusal :=
  if dflt then none
  else if !lenFits pr.tmax tbl.length then some .tableTooLong
  else if !tbl.all (symFits pr) then some .symbolTooWide
  else none

/-- Why the unit cannot take this byte input. -/
def bytesRefusal (pr : Config.Params) (inB : List Byte) : Option Refusal :=
  if !lenFits pr.maxLen inB.length then some .inputTooLong else none

/-- Why the unit cannot take this symbol input. -/
def symsRefusal (pr : Config.Params) (inS : List Sym) : Option Refusal :=
  if !lenFits pr.maxLen inS.length then some .inputTooLong
  else if !inS.all (symFits pr) then some .symbolTooWide
  else none

/-- The operands of an encode command. -/
def encodeRefusal (pr : Config.Params) (dflt : Bool) (p : Ports) : Option Refusal :=
  (tableRefusal pr dflt p.tbl).or (bytesRefusal pr p.inB)

/-- The operands of a decode command. -/
def decodeRefusal (pr : Config.Params) (dflt : Bool) (p : Ports) : Option Refusal :=
  (tableRefusal pr dflt p.tbl).or (symsRefusal pr p.inS)

/-! ## Forward lookup (R26) -/

/-- R26, R101: `lut(T, v) = T[v]` in a 16-entry table; a nibble is always in range. -/
def lut16 (T : List Sym) (h : T.length = 16) (v : Nib) : Sym :=
  T[v.toNat]'(by have := v.isLt; omega)

/-- R26, R125: `sext2sym(T, v) = T[v]` in a 65-entry table; a sextet is always in range. -/
def lut64 (T : List Sym) (h : T.length = 65) (v : Sext) : Sym :=
  T[v.toNat]'(by have := v.isLt; omega)

/-- R125: `PAD = T[64]`. -/
def padSym (T : List Sym) (h : T.length = 65) : Sym := T[64]'(by omega)

/-! ## Reverse lookup (R27) -/

/-- R27: `rlut(T, s)`, the index of the entry equal to `s`, or NONE. Entries are distinct where it is applied. -/
def rlut (T : List Sym) (s : Sym) : Option Nat := T.findIdx? (fun t => t == s)

/-- R110: `sym2nib(T, s)`. -/
def sym2nib (T : List Sym) (s : Sym) : Option Nib := (rlut T s).map (BitVec.ofNat 4)

/-- R140: `sym2sext(T, s)`, index 64 being the padding sentinel. -/
def sym2val (T : List Sym) (s : Sym) : Option SymVal :=
  (rlut T s).map fun i => if i = 64 then .pad else .data (BitVec.ofNat 6 i)

/-- The sextet of a reverse-lookup value; the sentinel has none. -/
def sextOf : SymVal → Option Sext
  | .data v => some v
  | .pad => none

/-- R182 code 6, C3: a symbol at a data position stands for a sextet when it is one of `T[0..63]`. -/
def sym2sext (T : List Sym) (s : Sym) : Option Sext := (sym2val T s).bind sextOf

/-- R27, R110: the map START builds from the latched table for U1, in table order. -/
def buildRlut16 (T : List Sym) : List (Sym × Nib) :=
  T.zipIdx.map fun e => (e.1, BitVec.ofNat 4 e.2)

/-- R27, R140: the map START builds from the latched table for U3, in table order. -/
def buildRlut64 (T : List Sym) : List (Sym × SymVal) :=
  T.zipIdx.map fun e => (e.1, if e.2 = 64 then .pad else .data (BitVec.ofNat 6 e.2))

/-- All symbols looked up, or none when some symbol is unknown (R114, R146). -/
def lookupAll {ν : Type} (look : Sym → Option ν) : List Sym → Option (List ν)
  | [] => some []
  | s :: ss =>
    match look s, lookupAll look ss with
    | some v, some vs => some (v :: vs)
    | _, _ => none

/-! ## Base16 bytes (R53, R79) -/

/-- R79: `(b >> 4) & 0xF`. -/
def hiNib (b : Byte) : Nib := ((b >>> 4) &&& 0x0F#8).setWidth 4

/-- R79: `b & 0xF`. -/
def loNib (b : Byte) : Nib := (b &&& 0x0F#8).setWidth 4

/-- R101: the nibble-to-symbol LUT with dual output, high nibble's symbol first. -/
def b16encByte (sym : Nib → Sym) (b : Byte) : List Sym := [sym (hiNib b), sym (loNib b)]

/-- R112: `(h << 4) | l`. -/
def b16decPair (h l : Nib) : Byte := (h.setWidth 8 <<< 4) ||| l.setWidth 8

/-- R114: the byte of one granule's two nibbles. -/
def b16decGranule : List Nib → List Byte
  | [h, l] => [b16decPair h l]
  | _ => []

/-! ## Base64 groups (R52, R80, R81) -/

/-- R52: `(b0 << 16) | (b1 << 8) | b2`. -/
def packBytes (b0 b1 b2 : Byte) : Group24 :=
  (b0.setWidth 24 <<< 16) ||| (b1.setWidth 24 <<< 8) ||| b2.setWidth 24

/-- R7: the sextet of `w` at position `q`, `(w >> q) & 0x3F`. -/
def sextAt (w : Group24) (q : Nat) : Sext := ((w >>> q) &&& 0x3F#24).setWidth 6

/-- R80: `(v0 << 18) | (v1 << 12) | (v2 << 6) | v3`. -/
def packSexts (v0 v1 v2 v3 : Sext) : Group24 :=
  (v0.setWidth 24 <<< 18) ||| (v1.setWidth 24 <<< 12) ||| (v2.setWidth 24 <<< 6) ||| v3.setWidth 24

/-- R7: the byte of `w` at position `q`, `(w >> q) & 0xFF`. -/
def byteAt (w : Group24) (q : Nat) : Byte := ((w >>> q) &&& 0xFF#24).setWidth 8

/-- R127: the 3-to-4 grouper. -/
def group3to4 (b0 b1 b2 : Byte) : Sext × Sext × Sext × Sext :=
  let w := packBytes b0 b1 b2
  (sextAt w 18, sextAt w 12, sextAt w 6, sextAt w 0)

/-- R143: the 4-to-3 ungrouper. -/
def ungroup4to3 (v0 v1 v2 v3 : Sext) : Byte × Byte × Byte :=
  let w := packSexts v0 v1 v2 v3
  (byteAt w 16, byteAt w 8, byteAt w 0)

/-- R129: a granule of 3, 2 or 1 bytes to four symbols, the padding injector included (R128). -/
def b64encGroup (sym : Sext → Sym) (pad : Sym) : List Byte → List Sym
  | [b0, b1, b2] =>
    let (v0, v1, v2, v3) := group3to4 b0 b1 b2
    [sym v0, sym v1, sym v2, sym v3]
  | [b0, b1] =>
    let (v0, v1, v2, _) := group3to4 b0 b1 0
    [sym v0, sym v1, sym v2, pad]
  | [b0] =>
    let (v0, v1, _, _) := group3to4 b0 0 0
    [sym v0, sym v1, pad, pad]
  | _ => []

/-- R145: a granule of 4, 3 or 2 data sextets to 3, 2 or 1 bytes, the padding stripper included (R144). -/
def b64decGroup : List Sext → List Byte
  | [v0, v1, v2, v3] =>
    let (c0, c1, c2) := ungroup4to3 v0 v1 v2 v3
    [c0, c1, c2]
  | [v0, v1, v2] =>
    let (c0, c1, _) := ungroup4to3 v0 v1 v2 0
    [c0, c1]
  | [v0, v1] =>
    let (c0, _, _) := ungroup4to3 v0 v1 0 0
    [c0]
  | _ => []

/-! ## The padding stripper's detection (R142) -/

/-- R141: the positions of `inp` that hold `pad`, in increasing order. -/
def padPositions (pad : Sym) (inp : List Sym) : List Nat :=
  (inp.zipIdx.filter fun e => e.1 == pad).map fun e => e.2

/-- R142: the set of positions holding PAD is none of `{}`, `{n-1}`, `{n-2, n-1}`. A table without an entry 64
has no padding symbol; START has refused it before (R161). -/
def misplacedPadding (T inp : List Sym) : Bool :=
  match T[64]? with
  | none => false
  | some pad =>
    let n := inp.length
    let ps := padPositions pad inp
    !(ps == [] || ps == [n - 1] || ps == [n - 2, n - 1])

/-- R142: how many of the final two symbols equal the padding symbol. -/
def padCount (T inp : List Sym) : Fin 3 :=
  let n := inp.length
  (if inp[n - 2]? = T[64]? then 1 else 0) + (if inp[n - 1]? = T[64]? then 1 else 0)

/-- R146: the number of data symbols of granule `g`. -/
def dataSyms (g ngran : Nat) (npad : Fin 3) : Nat :=
  if g + 1 < ngran ∨ npad = 0 then 4 else 4 - npad.val

end Sys2Proof.Machine
end

