-- ==== Sys2Proof/Machine/Flags.lean ====
section
/-! DEFINITION. Status: the reason codes and their priority (60_exceptions.md R182, R184), and the output signals
of 10_state.md R35. The block has no condition codes (R28). -/

namespace Sys2Proof.Machine

/-- R182: the 3-bit code of a reason; 7 is never produced. -/
def reasonCode : Reason → BitVec 3
  | .ok => 0
  | .emptyInput => 1
  | .tableLength => 2
  | .tableDuplicate => 3
  | .inputLength => 4
  | .padding => 5
  | .unknownSymbol => 6

/-- R31: the 2-bit code of a phase; 3 never occurs. -/
def phaseCode : Phase → BitVec 2
  | .idle => 0
  | .busy => 1
  | .done => 2

/-- R161: "the least number in 1..5 whose condition holds, or 0 if none", for a unit whose tables have `L` entries
and whose input comes in multiples of `gran` symbols (1: any length); `misplaced` is condition 5. -/
def startReason (L gran n : Nat) (T : List Sym) (misplaced : Bool) : Option Reason :=
  if n = 0 then some .emptyInput
  else if T.length ≠ L then some .tableLength
  else if !distinct T then some .tableDuplicate
  else if n % gran ≠ 0 then some .inputLength
  else if misplaced then some .padding
  else none

/-- R35: `ready`, the phase is IDLE. -/
def UnitRec.ready {α β : Type} (r : UnitRec α β) : Bool := r.phase == .idle

/-- R35: `done`, the phase is DONE. -/
def UnitRec.isDone {α β : Type} (r : UnitRec α β) : Bool := r.phase == .done

/-- R35: `res`, meaningful only while done; a model exposes it only in DONE (U9). -/
def UnitRec.resOut {α β : Type} (r : UnitRec α β) : Option (List β) := if r.isDone then r.RES else none

/-- R28, R35: `fail`, `phase = DONE and len(RES) = 0`. -/
def UnitRec.failOut {α β : Type} (r : UnitRec α β) : Bool :=
  r.isDone && (match r.RES with
    | some out => out.isEmpty
    | none => false)

/-- R35: `reason`, 3 bits, meaningful only while done; exposed only in DONE (U9). -/
def UnitRec.reasonOut {α β : Type} (r : UnitRec α β) : Option (BitVec 3) :=
  if r.isDone then r.reason.map reasonCode else none

/-- The phase of unit `u`. -/
def State.phase (s : State) : UnitId → Phase
  | .u0 => s.u0.phase
  | .u1 => s.u1.phase
  | .u2 => s.u2.phase
  | .u3 => s.u3.phase

/-- R35: `ready[u]`. -/
def State.ready (s : State) : UnitId → Bool
  | .u0 => s.u0.ready
  | .u1 => s.u1.ready
  | .u2 => s.u2.ready
  | .u3 => s.u3.ready

/-- R35: `done[u]`. -/
def State.done (s : State) : UnitId → Bool
  | .u0 => s.u0.isDone
  | .u1 => s.u1.isDone
  | .u2 => s.u2.isDone
  | .u3 => s.u3.isDone

/-- R35: `fail[u]`. -/
def State.fail (s : State) : UnitId → Bool
  | .u0 => s.u0.failOut
  | .u1 => s.u1.failOut
  | .u2 => s.u2.failOut
  | .u3 => s.u3.failOut

/-- R35: `reason[u]`. -/
def State.reason (s : State) : UnitId → Option (BitVec 3)
  | .u0 => s.u0.reasonOut
  | .u1 => s.u1.reasonOut
  | .u2 => s.u2.reasonOut
  | .u3 => s.u3.reasonOut

/-- R35: `ack[u]`. -/
def Ports.ack (p : Ports) : UnitId → Bool
  | .u0 => p.ack0
  | .u1 => p.ack1
  | .u2 => p.ack2
  | .u3 => p.ack3

/-- R31, R35: `len(RES)` as the host reads it. -/
def State.resLen (s : State) : UnitId → Option Nat
  | .u0 => s.u0.resOut.map List.length
  | .u1 => s.u1.resOut.map List.length
  | .u2 => s.u2.resOut.map List.length
  | .u3 => s.u3.resOut.map List.length

end Sys2Proof.Machine
end

