-- ==== Sys2Proof/Machine/Ops.lean ====
section
/-! DEFINITION. The shared operations on unit records: reading valid storage, appending to OUT, taking a failure
(60_exceptions.md R181), FINISH, ACK, RESET, and the gate every START passes (44_control.md). -/

namespace Sys2Proof.Machine

/-- One step's outcome. -/
abbrev Result := Host.Outcome State Fault Refusal

/-- R29: the value of a field, a fault when the field is invalid. -/
def valid {γ : Type} (u : UnitId) (f : Field) : Option γ → Except Fault γ
  | some x => .ok x
  | none => .error (.invalidRead u f)

/-- R9, R51: `MemRead(x, i, k)`, defined only for `i + k <= len(x)`. -/
def memRead {α : Type} (u : UnitId) (f : Field) (x : List α) (i k : Nat) : Except Fault (List α) :=
  if i + k ≤ x.length then .ok ((x.drop i).take k) else .error (.indexOutOfRange u f)

/-- R9, R51: `MemWrite(OUT, i, k, s)` with `len(s) = k`, which appends: `i = len(OUT)`. -/
def memWrite {β : Type} (u : UnitId) (out : List β) (i k : Nat) (s : List β) : Except Fault (List β) :=
  if i = out.length ∧ s.length = k then .ok (out ++ s) else .error (.notAnAppend u)

/-- R101: U0's read ports on its 16-entry table. -/
def readPorts16 (u : UnitId) (T : List Sym) : Except Fault (Nib → Sym) :=
  if h : T.length = 16 then .ok (lut16 T h) else .error (.indexOutOfRange u .T)

/-- R125: U2's read ports on its 65-entry table, data and padding. -/
def readPorts64 (u : UnitId) (T : List Sym) : Except Fault ((Sext → Sym) × Sym) :=
  if h : T.length = 65 then .ok (lut64 T h, padSym T h) else .error (.indexOutOfRange u .T)

/-! ## Records at the ends of a transaction -/

/-- R163, R164: DONE with a result and a reason, every working field invalid (R30). -/
def UnitRec.ended {α β : Type} (res : List β) (rsn : Reason) : UnitRec α β :=
  { phase := .done, T := none, IN := none, pos := none, ngran := none, OUT := none,
    RES := some res, reason := some rsn }

/-- TAKING A FAILURE, R181: `RES <- []`, `reason <- r`, `phase <- DONE`, every working field invalid. -/
def UnitRec.failed {α β : Type} (r : Reason) : UnitRec α β := UnitRec.ended [] r

/-- R181 for a decoder: RLUT invalid too (R163). -/
def DecUnit.failed {ν : Type} (r : Reason) : DecUnit ν := { toUnitRec := UnitRec.failed r, RLUT := none }

/-- R181 for U3: npad invalid too (R163). -/
def Dec64Unit.failed (r : Reason) : Dec64Unit := { toDecUnit := DecUnit.failed r, npad := none }

/-- R161: BUSY with the latched operands, nothing processed and nothing produced. -/
def UnitRec.started {α β : Type} (T : List Sym) (inp : List α) (ngran : Nat) : UnitRec α β :=
  { phase := .busy, T := some T, IN := some inp, pos := some 0, ngran := some ngran, OUT := some [],
    RES := none, reason := none }

/-- R164, FINISH: `RES <- OUT`, `reason <- 0`, `phase <- DONE`, every working field invalid. -/
def UnitRec.finish {α β : Type} (u : UnitId) (r : UnitRec α β) : Except Fault (UnitRec α β) :=
  match valid u .OUT r.OUT with
  | .ok out => .ok (UnitRec.ended out .ok)
  | .error f => .error f

/-- R164 for a decoder. -/
def DecUnit.finish {ν : Type} (u : UnitId) (r : DecUnit ν) : Except Fault (DecUnit ν) :=
  match r.toUnitRec.finish u with
  | .ok e => .ok { toUnitRec := e, RLUT := none }
  | .error f => .error f

/-- R164 for U3. -/
def Dec64Unit.finish (u : UnitId) (r : Dec64Unit) : Except Fault Dec64Unit :=
  match r.toDecUnit.finish u with
  | .ok e => .ok { toDecUnit := e, npad := none }
  | .error f => .error f

/-- R102, R114, R130, R146: a granule's elements stand in OUT and pos counts on. -/
def UnitRec.advanced {α β : Type} (r : UnitRec α β) (out : List β) (pos : Nat) : UnitRec α β :=
  { r with OUT := some out, pos := some pos }

/-! ## Return from a transaction: ACK (R165, R185) -/

/-- R165: from DONE to exactly the reset state; no effect in another phase. -/
def UnitRec.acked {α β : Type} (r : UnitRec α β) : UnitRec α β :=
  if r.phase = .done then UnitRec.idle else r

/-- R165 for a decoder. -/
def DecUnit.acked {ν : Type} (r : DecUnit ν) : DecUnit ν :=
  if r.phase = .done then DecUnit.idle else r

/-- R165 for U3. -/
def Dec64Unit.acked (r : Dec64Unit) : Dec64Unit :=
  if r.phase = .done then Dec64Unit.idle else r

/-! ## The unit action enabled at a position (R160, R171) -/

/-- R160: of a BUSY unit, STEP when `pos < ngran`, FINISH when `pos = ngran`. -/
def unitAction {ρ : Type} (u : UnitId) (pos ngran : Option Nat) (granule : Nat → Except Fault ρ)
    (finish : Except Fault ρ) : Except Fault ρ :=
  match valid u .pos pos, valid u .ngran ngran with
  | .ok p, .ok n =>
    if p < n then granule p
    else if p = n then finish
    else .error (.posBeyondEnd u)
  | .error f, _ => .error f
  | .ok _, .error f => .error f

/-! ## The gate of START -/

/-- R161, R162, R212: a START before the first RESET is refused; one to a unit that is not IDLE is dropped; one
whose operands the ports cannot carry is refused; otherwise the unit takes it. -/
def startGate (s : State) (ph : Phase) (bad : Option Refusal) (taken : State) : Result :=
  if s.wasReset = false then .refused .beforeReset
  else if ph ≠ .idle then .next s
  else
    match bad with
    | some r => .refused r
    | none => .next taken

end Sys2Proof.Machine
end

