-- ==== Sys2Proof/Machine/Base16.lean ====
section
/-! DEFINITION. The base16 units: B16ENC on U0 (40_base16_encoder.md) and B16DEC on U1 (41_base16_decoder.md):
transaction functions, START, granule steps. -/

namespace Sys2Proof.Machine

/-! ## Transaction functions, the contract (R10) -/

/-- The loop of R100: every byte's two symbols, in order. -/
def b16encAll (sym : Nib → Sym) (bytes : List Byte) : List Sym := bytes.flatMap (b16encByte sym)

/-- R100: `b16enc(bytes, T)`. -/
def b16enc (bytes : List Byte) (T : List Sym) : Except Reason (List Sym) :=
  if bytes = [] then .error .emptyInput
  else if h : T.length = 16 then
    if distinct T then .ok (b16encAll (lut16 T h) bytes) else .error .tableDuplicate
  else .error .tableLength

/-- The loop of R111: every pair's byte, in order, or the failure of the first pair with an unknown symbol. A last
single symbol, which the check on an even length excludes, makes no byte. -/
def b16decAll (look : Sym → Option Nib) : List Sym → Except Reason (List Byte)
  | s0 :: s1 :: rest =>
    match lookupAll look [s0, s1] with
    | none => .error .unknownSymbol
    | some vs =>
      match b16decAll look rest with
      | .error r => .error r
      | .ok out => .ok (b16decGranule vs ++ out)
  | _ => .ok []

/-- R111: `b16dec(syms, T)`. -/
def b16dec (syms : List Sym) (T : List Sym) : Except Reason (List Byte) :=
  if syms = [] then .error .emptyInput
  else if T.length ≠ 16 then .error .tableLength
  else if !distinct T then .error .tableDuplicate
  else if syms.length % 2 ≠ 0 then .error .inputLength
  else b16decAll (sym2nib T) syms

/-! ## B16ENC on unit U0 -/

/-- R161 for u = 0. -/
def startU0 (T : List Sym) (inp : List Byte) : EncUnit :=
  match startReason 16 1 inp.length T false with
  | some r => UnitRec.failed r
  | none => UnitRec.started T inp inp.length

/-- R102: the granule step of U0, one byte. -/
def granuleU0 (r : EncUnit) (g : Nat) : Except Fault EncUnit := do
  let inp ← valid .u0 .IN r.IN
  let bs ← memRead .u0 .IN inp g 1
  let T ← valid .u0 .T r.T
  let sym ← readPorts16 .u0 T
  let out ← valid .u0 .OUT r.OUT
  let out' ← memWrite .u0 out (2 * g) 2 (b16encAll sym bs)
  .ok (r.advanced out' (g + 1))

/-- R160: the unit action of U0, enabled when BUSY. -/
def actU0 (r : EncUnit) : Except Fault EncUnit :=
  if r.phase = .busy then unitAction .u0 r.pos r.ngran (granuleU0 r) (r.finish .u0) else .ok r

/-- B16ENC: START of U0 with the operands at the ports (R161, R100). -/
def execB16enc (dflt : Bool) (s : State) : Result :=
  startGate s s.u0.phase (encodeRefusal s.params dflt s.ports)
    { s with u0 := startU0 (tableOperand16 dflt s.ports) s.ports.inB }

/-! ## B16DEC on unit U1 -/

/-- R161 for u = 1. -/
def startU1 (T : List Sym) (inp : List Sym) : Dec16Unit :=
  match startReason 16 2 inp.length T false with
  | some r => DecUnit.failed r
  | none => { toUnitRec := UnitRec.started T inp (inp.length / 2), RLUT := some (buildRlut16 T) }

/-- R114: the granule step of U1, one pair of symbols; an unknown symbol takes the failure (R163). -/
def granuleU1 (r : Dec16Unit) (g : Nat) : Except Fault Dec16Unit := do
  let inp ← valid .u1 .IN r.IN
  let ss ← memRead .u1 .IN inp (2 * g) 2
  let rl ← valid .u1 .RLUT r.RLUT
  match lookupAll (fun s => rl.lookup s) ss with
  | none => .ok (DecUnit.failed .unknownSymbol)
  | some vs =>
    let out ← valid .u1 .OUT r.OUT
    let out' ← memWrite .u1 out g 1 (b16decGranule vs)
    .ok { r with toUnitRec := r.toUnitRec.advanced out' (g + 1) }

/-- R160: the unit action of U1, enabled when BUSY. -/
def actU1 (r : Dec16Unit) : Except Fault Dec16Unit :=
  if r.phase = .busy then unitAction .u1 r.pos r.ngran (granuleU1 r) (r.finish .u1) else .ok r

/-- B16DEC: START of U1 with the operands at the ports (R161, R111). -/
def execB16dec (dflt : Bool) (s : State) : Result :=
  startGate s s.u1.phase (decodeRefusal s.params dflt s.ports)
    { s with u1 := startU1 (tableOperand16 dflt s.ports) s.ports.inS }

end Sys2Proof.Machine
end

