-- ==== Sys2Proof/Machine/Base64.lean ====
section
/-! DEFINITION. The base64 units: B64ENC on U2 (42_base64_encoder.md) and B64DEC on U3 (43_base64_decoder.md):
transaction functions, START, granule steps. -/

namespace Sys2Proof.Machine

/-! ## Transaction functions, the contract (R10) -/

/-- The loop and the tail of R126: every granule's four symbols, in order. -/
def b64encAll (sym : Sext → Sym) (pad : Sym) : List Byte → List Sym
  | b0 :: b1 :: b2 :: rest => b64encGroup sym pad [b0, b1, b2] ++ b64encAll sym pad rest
  | [b0, b1] => b64encGroup sym pad [b0, b1]
  | [b0] => b64encGroup sym pad [b0]
  | [] => []

/-- R126: `b64enc(bytes, T)`. -/
def b64enc (bytes : List Byte) (T : List Sym) : Except Reason (List Sym) :=
  if bytes = [] then .error .emptyInput
  else if h : T.length = 65 then
    if distinct T then .ok (b64encAll (lut64 T h) (padSym T h) bytes) else .error .tableDuplicate
  else .error .tableLength

/-- The loop of R141: every group's bytes, in order, the last group having `4 - p` data symbols, or the failure of
the first group with an unknown symbol. A last part of fewer than four symbols, which the check on the length
excludes, makes no byte. -/
def b64decAll (look : Sym → Option Sext) (p : Fin 3) : List Sym → Except Reason (List Byte)
  | s0 :: s1 :: s2 :: s3 :: rest =>
    let m := if rest = [] then 4 - p.val else 4
    match lookupAll look ([s0, s1, s2, s3].take m) with
    | none => .error .unknownSymbol
    | some vs =>
      match b64decAll look p rest with
      | .error r => .error r
      | .ok out => .ok (b64decGroup vs ++ out)
  | _ => .ok []

/-- R141: `b64dec(syms, T)`. -/
def b64dec (syms : List Sym) (T : List Sym) : Except Reason (List Byte) :=
  if syms = [] then .error .emptyInput
  else if T.length ≠ 65 then .error .tableLength
  else if !distinct T then .error .tableDuplicate
  else if syms.length % 4 ≠ 0 then .error .inputLength
  else if misplacedPadding T syms then .error .padding
  else b64decAll (sym2sext T) (padCount T syms) syms

/-! ## B64ENC on unit U2 -/

/-- R161 for u = 2; `ngran = ceil(n / 3)`. -/
def startU2 (T : List Sym) (inp : List Byte) : EncUnit :=
  match startReason 65 1 inp.length T false with
  | some r => UnitRec.failed r
  | none => UnitRec.started T inp ((inp.length + 2) / 3)

/-- R130: the granule step of U2, three bytes or the tail. -/
def granuleU2 (r : EncUnit) (g : Nat) : Except Fault EncUnit := do
  let inp ← valid .u2 .IN r.IN
  let bs ← memRead .u2 .IN inp (3 * g) (min 3 (inp.length - 3 * g))
  let T ← valid .u2 .T r.T
  let (sym, pad) ← readPorts64 .u2 T
  let out ← valid .u2 .OUT r.OUT
  let out' ← memWrite .u2 out (4 * g) 4 (b64encGroup sym pad bs)
  .ok (r.advanced out' (g + 1))

/-- R160: the unit action of U2, enabled when BUSY. -/
def actU2 (r : EncUnit) : Except Fault EncUnit :=
  if r.phase = .busy then unitAction .u2 r.pos r.ngran (granuleU2 r) (r.finish .u2) else .ok r

/-- B64ENC: START of U2 with the operands at the ports (R161, R126). -/
def execB64enc (dflt : Bool) (s : State) : Result :=
  startGate s s.u2.phase (encodeRefusal s.params dflt s.ports)
    { s with u2 := startU2 (tableOperand64 dflt s.ports) s.ports.inB }

/-! ## B64DEC on unit U3 -/

/-- R161 for u = 3. -/
def startU3 (T : List Sym) (inp : List Sym) : Dec64Unit :=
  match startReason 65 4 inp.length T (misplacedPadding T inp) with
  | some r => Dec64Unit.failed r
  | none =>
    { toUnitRec := UnitRec.started T inp (inp.length / 4), RLUT := some (buildRlut64 T),
      npad := some (padCount T inp) }

/-- R146: the granule step of U3, the data symbols of four; an unknown symbol takes the failure (R163). A padding
sentinel at a data position, which START's check has excluded, is not one of `T[0..63]` and takes it too (R182
code 6, C3). -/
def granuleU3 (r : Dec64Unit) (g : Nat) : Except Fault Dec64Unit := do
  let n ← valid .u3 .ngran r.ngran
  let p ← valid .u3 .npad r.npad
  let inp ← valid .u3 .IN r.IN
  let ss ← memRead .u3 .IN inp (4 * g) (dataSyms g n p)
  let rl ← valid .u3 .RLUT r.RLUT
  match lookupAll (fun s => (rl.lookup s).bind sextOf) ss with
  | none => .ok (Dec64Unit.failed .unknownSymbol)
  | some vs =>
    let out ← valid .u3 .OUT r.OUT
    let out' ← memWrite .u3 out out.length (dataSyms g n p - 1) (b64decGroup vs)
    .ok { r with toUnitRec := r.toUnitRec.advanced out' (g + 1) }

/-- R160: the unit action of U3, enabled when BUSY. -/
def actU3 (r : Dec64Unit) : Except Fault Dec64Unit :=
  if r.phase = .busy then unitAction .u3 r.pos r.ngran (granuleU3 r) (r.finish .u3) else .ok r

/-- B64DEC: START of U3 with the operands at the ports (R161, R141). -/
def execB64dec (dflt : Bool) (s : State) : Result :=
  startGate s s.u3.phase (decodeRefusal s.params dflt s.ports)
    { s with u3 := startU3 (tableOperand64 dflt s.ports) s.ports.inS }

end Sys2Proof.Machine
end

