-- ==== Sys2Proof/Machine/Control.lean ====
section
/-! DEFINITION. Transaction control (44_control.md): RESET, ACK, the unit actions, the host's move, and what step
takes next. -/

namespace Sys2Proof.Machine

/-- R166: RESET, every unit to IDLE with every other field invalid. The input signals, the moves to come and the
parameters are no state of CORE (R160) and stand. -/
def resetAll (s : State) : State :=
  { s with u0 := UnitRec.idle, u1 := DecUnit.idle, u2 := UnitRec.idle, u3 := Dec64Unit.idle, wasReset := true }

/-- R165: the ACKs asserted at the ports. -/
def ackAll (s : State) : State :=
  { s with
    u0 := if s.ports.ack0 then s.u0.acked else s.u0
    u1 := if s.ports.ack1 then s.u1.acked else s.u1
    u2 := if s.ports.ack2 then s.u2.acked else s.u2
    u3 := if s.ports.ack3 then s.u3.acked else s.u3 }

/-- A unit's new record put into the state, or its fault. -/
def placed {ρ : Type} (put : ρ → State) : Except Fault ρ → Result
  | .ok r => .next (put r)
  | .error f => .fault f

/-- R160: STEP or FINISH of unit `u`, whichever is enabled; a unit that is not BUSY has no action and nothing
changes (log 4). -/
def unitAct (u : UnitId) (s : State) : Result :=
  match u with
  | .u0 => placed (fun r => { s with u0 := r }) (actU0 s.u0)
  | .u1 => placed (fun r => { s with u1 := r }) (actU1 s.u1)
  | .u2 => placed (fun r => { s with u2 := r }) (actU2 s.u2)
  | .u3 => placed (fun r => { s with u3 := r }) (actU3 s.u3)

/-- The BUSY units, in the order of their numbers. -/
def busyUnits (s : State) : List UnitId :=
  [UnitId.u0, .u1, .u2, .u3].filter fun u => s.phase u == .busy

/-- The unit that acts when no move is listed: one of the BUSY units, which one being free (R168, log 5); none when
no unit is BUSY, the end of a run (R171). -/
def freeUnit (s : State) : Option UnitId :=
  match busyUnits s with
  | [] => none
  | [u] => some u
  | u :: us => some ((u :: us).getD (Config.freeChoice s.turns % (us.length + 1)) u)

/-- R168, R171: with no move listed, a BUSY unit acts (weak fairness); with none BUSY nothing changes. -/
def drain (s : State) : Result :=
  match freeUnit s with
  | none => .next s
  | some u => unitAct u { s with turns := s.turns + 1 }

/-- R172: the host's signals of one move, without the START: RESET first, then the ACKs. -/
def hostSignals (s : State) : State :=
  ackAll (if s.ports.reset then resetAll s else s)

/-- What a step does: a command to execute in a state, or a move that is no command. -/
inductive Taken where
  | command (i : Instr) (s : State)
  | other (r : Result)

/-- R172: the host's move: its signals, then the START of the command word at the port when `cmd_valid`. Before the
first RESET only a move that asserts `reset` has a meaning (R201, U10). -/
def hostMove (s : State) : Taken :=
  let t := hostSignals s
  if t.wasReset = false then .other (.refused .beforeReset)
  else if t.ports.cmdValid then .command (decodeCmd t.ports.cmd) t
  else .other (.next t)

/-- A unit's move; before the first RESET it has no meaning (U10). -/
def unitMove (u : UnitId) (s : State) : Result :=
  if s.wasReset = false then .refused .beforeReset else unitAct u s

/-- No move is listed; before the first RESET that has no meaning (U10). -/
def idleMove (s : State) : Result :=
  if s.wasReset = false then .refused .beforeReset else drain s

/-- R160, R168: the next move, taken from the head of the moves to come. -/
def takeMove (s : State) : Taken :=
  match s.run with
  | .host p :: rest => hostMove { s with ports := p, run := rest }
  | .unit u :: rest => .other (unitMove u { s with run := rest })
  | [] => .other (idleMove s)

/-- The command word `w` presented at the ports with the operands that stand there, and no other signal; a number
wider than three bits cannot be presented (log 8). -/
def presenting (p : Ports) (w : Nat) : Ports :=
  { p with reset := false, cmdValid := decide (w < 8), cmd := BitVec.ofNat 3 w,
           ack0 := false, ack1 := false, ack2 := false, ack3 := false }

end Sys2Proof.Machine
end

