-- ==== Sys2Proof/Machine/Dispatch.lean ====
section
/-! DEFINITION. exec: the meaning of every command, one arm per constructor (30_encoding.md R71). -/

namespace Sys2Proof.Machine

def exec (i : Instr) (s : State) : Host.Outcome State Fault Refusal :=
  match i with
  | .b16enc dflt => Sys2Proof.Machine.execB16enc dflt s
  | .b16dec dflt => Sys2Proof.Machine.execB16dec dflt s
  | .b64enc dflt => Sys2Proof.Machine.execB64enc dflt s
  | .b64dec dflt => Sys2Proof.Machine.execB64dec dflt s

end Sys2Proof.Machine
end

