-- ==== Sys2Proof/Machine/Step.lean ====
section
/-! DEFINITION. One step of CORE (44_control.md R160): the next move, and where a command stands for it. -/

namespace Sys2Proof.Machine

/-- R160: "A step of CORE is exactly one of the following actions". -/
def step (s : State) : Host.Outcome State Fault Refusal :=
  match takeMove s with
  | .command i t => exec i t
  | .other r => r

/-- `s` with a host move put before the moves to come: the command word `w` presented with `cmd_valid`, the operands
being those that stand at the ports (log 3). -/
def State.withFetchWord (s : State) (_nbits w : Nat) : State :=
  { s with run := .host (presenting s.ports w) :: s.run }

end Sys2Proof.Machine
end

