-- ==== Sys2Proof/WellFormed.lean ====
section
/-! DEFINITION. Well-formedness of instructions and of the parameters. -/

namespace Sys2Proof

/-- R73: "Every one of the eight values of `cmd` is a defined command; there is no reserved, illegal, hint or
custom command encoding". So every instruction is well formed, and there is no check here to refuse one. -/
def Instr.wellFormed : Instr → Bool
  | .b16enc _ => true
  | .b16dec _ => true
  | .b64enc _ => true
  | .b64dec _ => true

/-- R6: `SYM_W >= 7` so that the default tables are representable, and `TMAX >= 65`. -/
def Config.Params.wellFormed (p : Config.Params) : Bool :=
  (match p.symW with
   | none => true
   | some w => decide (7 ≤ w)) &&
  (match p.tmax with
   | none => true
   | some t => decide (65 ≤ t))

end Sys2Proof
end

