-- ==== Sys2Proof/Safety.lean ====
section
/-! DEFINITION. What the claims speak of: the literal conditions of START, the invariant of every reachable state,
a unit serving a transaction, and comparing states unit by unit. No definition of the machine reads this file. -/

namespace Sys2Proof.Safety

open Sys2Proof.Machine

/-! ## The conditions of the spec, word for word -/

/-- R74: `len(T) = L and for all i, j with 0 <= i < j < L: T[i] /= T[j]` (valid16 for 16, valid65 for 65). -/
def ValidTable (L : Nat) (T : List Sym) : Prop :=
  T.length = L ∧ ∀ i j : Nat, i < j → j < L → T[i]? ≠ T[j]?

/-- R142, R161 condition 5 denied: `{ i | inp[i] = T[64] }` is one of `{}`, `{n-1}`, `{n-2, n-1}`. -/
def PaddingPlaced (T inp : List Sym) : Prop :=
  (∀ i, i < inp.length → inp[i]? ≠ T[64]?) ∨
  (∀ i, i < inp.length → (inp[i]? = T[64]? ↔ i + 1 = inp.length)) ∨
  (∀ i, i < inp.length → (inp[i]? = T[64]? ↔ i + 2 = inp.length ∨ i + 1 = inp.length))

/-- R161: condition `k` of START, for tables of `L` entries and inputs of `n` elements in multiples of `gran`;
`placed` says that no padding symbol is misplaced. -/
def StartCondition (L gran n : Nat) (T : List Sym) (placed : Prop) : Nat → Prop
  | 1 => n = 0
  | 2 => T.length ≠ L
  | 3 => ∃ i j : Nat, i < j ∧ j < L ∧ T[i]? = T[j]?
  | 4 => n % gran ≠ 0
  | 5 => ¬ placed
  | _ => False

/-- R161: `r` is "the least number in 1..5 whose condition holds". -/
def LeastCondition (cond : Nat → Prop) (r : Nat) : Prop :=
  cond r ∧ ∀ k, k < r → ¬ cond k

/-- R161: no condition holds. -/
def NoCondition (cond : Nat → Prop) : Prop := ∀ k, ¬ cond k

/-- R148: of the last data symbol's sextet, the bits that reach no byte are zero: two bits with one padding symbol,
four bits with two, none without padding. -/
def DiscardedBitsZero (T inp : List Sym) : Prop :=
  ∀ x v, inp[inp.length - 1 - (padCount T inp).val]? = some x → sym2sext T x = some v →
    v.toNat % 4 ^ (padCount T inp).val = 0

/-! ## Units of a state -/

/-- R71: the unit that executes an instruction. -/
def unitOf : Instr → UnitId
  | .b16enc _ => .u0
  | .b16dec _ => .u1
  | .b64enc _ => .u2
  | .b64dec _ => .u3

/-- Unit `u` has the same record in both states. -/
def SameUnit (u : UnitId) (s t : State) : Prop :=
  match u with
  | .u0 => s.u0 = t.u0
  | .u1 => s.u1 = t.u1
  | .u2 => s.u2 = t.u2
  | .u3 => s.u3 = t.u3

/-- R34: unit `u` is exactly as after RESET: IDLE and every other field invalid. -/
def UnitReset (u : UnitId) (s : State) : Prop := SameUnit u s State.reset

/-- R29, R34: every field of the record but its phase is invalid. -/
def NothingValid {α β : Type} (r : UnitRec α β) : Prop :=
  r.T = none ∧ r.IN = none ∧ r.pos = none ∧ r.ngran = none ∧ r.OUT = none ∧ r.RES = none ∧ r.reason = none

/-- Everything of the state but the unit records is the same. -/
def SameAround (s t : State) : Prop :=
  s.ports = t.ports ∧ s.run = t.run ∧ s.turns = t.turns ∧ s.wasReset = t.wasReset ∧ s.params = t.params

/-- A host move that gives up what unit `u` holds: it asserts `reset`, or `ack[u]`. -/
def Releases (u : UnitId) (s : State) : Prop :=
  ∃ p rest, s.run = .host p :: rest ∧ (p.reset = true ∨ p.ack u = true)

/-! ## Operands that the ports can carry (R6, R212) -/

/-- R6, R212: the table operand and the byte input of an encode command are within TMAX, SYM_W and MAX_LEN. -/
def EncodeOperandsFit (dflt : Bool) (s : State) : Prop :=
  (dflt = false → (∀ t, s.params.tmax = some t → s.ports.tbl.length ≤ t) ∧
    (∀ w, s.params.symW = some w → ∀ x ∈ s.ports.tbl, x < 2 ^ w)) ∧
  (∀ m, s.params.maxLen = some m → s.ports.inB.length ≤ m)

/-- R6, R212: the table operand and the symbol input of a decode command are within TMAX, SYM_W and MAX_LEN. -/
def DecodeOperandsFit (dflt : Bool) (s : State) : Prop :=
  (dflt = false → (∀ t, s.params.tmax = some t → s.ports.tbl.length ≤ t) ∧
    (∀ w, s.params.symW = some w → ∀ x ∈ s.ports.tbl, x < 2 ^ w)) ∧
  (∀ m, s.params.maxLen = some m → s.ports.inS.length ≤ m) ∧
  (∀ w, s.params.symW = some w → ∀ x ∈ s.ports.inS, x < 2 ^ w)

/-! ## A unit serving one transaction -/

/-- The record a finished transaction leaves: its result with reason 0, or the empty result with its reason
(R163, R164, R181). -/
def settled {α β : Type} : Except Reason (List β) → UnitRec α β
  | .ok out => UnitRec.ended out .ok
  | .error r => UnitRec.ended [] r

/-- `settled` for a decoder: RLUT invalid. -/
def settledDec {ν : Type} (x : Except Reason (List Byte)) : DecUnit ν :=
  { toUnitRec := settled x, RLUT := none }

/-- `settled` for U3: RLUT and npad invalid. -/
def settled64 (x : Except Reason (List Byte)) : Dec64Unit :=
  { toDecUnit := settledDec x, npad := none }

/-- A BUSY record: operands latched, `pos` granules done, OUT holding what they produced (R22, R24, R25). -/
def busyRec {α β : Type} (T : List Sym) (inp : List α) (pos ngran : Nat) (out : List β) : UnitRec α β :=
  { phase := .busy, T := some T, IN := some inp, pos := some pos, ngran := some ngran, OUT := some out,
    RES := none, reason := none }

/-- U0 is BUSY with this table and input: the first `pos` bytes are encoded in OUT. -/
def BusyU0 (T : List Sym) (inp : List Byte) (r : EncUnit) : Prop :=
  ∃ (h : T.length = 16) (pos : Nat), distinct T = true ∧ inp ≠ [] ∧ pos ≤ inp.length ∧
    r = busyRec T inp pos inp.length (b16encAll (lut16 T h) (inp.take pos))

/-- U1 is BUSY with this table and input: the first `pos` pairs are decoded in OUT, RLUT is the table's. -/
def BusyU1 (T inp : List Sym) (r : Dec16Unit) : Prop :=
  ∃ (pos : Nat) (out : List Byte), T.length = 16 ∧ distinct T = true ∧ inp ≠ [] ∧ inp.length % 2 = 0 ∧
    pos ≤ inp.length / 2 ∧ b16decAll (sym2nib T) (inp.take (2 * pos)) = .ok out ∧
    r = { toUnitRec := busyRec T inp pos (inp.length / 2) out, RLUT := some (buildRlut16 T) }

/-- U2 is BUSY with this table and input: the first `pos` granules are encoded in OUT. -/
def BusyU2 (T : List Sym) (inp : List Byte) (r : EncUnit) : Prop :=
  ∃ (h : T.length = 65) (pos : Nat), distinct T = true ∧ inp ≠ [] ∧ pos ≤ (inp.length + 2) / 3 ∧
    r = busyRec T inp pos ((inp.length + 2) / 3) (b64encAll (lut64 T h) (padSym T h) (inp.take (3 * pos)))

/-- U3 is BUSY with this table and input: the first `pos` groups are decoded in OUT, of which only the last of all
can be padded; RLUT and npad are the table's and the input's. -/
def BusyU3 (T inp : List Sym) (r : Dec64Unit) : Prop :=
  ∃ (pos : Nat) (out : List Byte), T.length = 65 ∧ distinct T = true ∧ inp ≠ [] ∧ inp.length % 4 = 0 ∧
    misplacedPadding T inp = false ∧ pos ≤ inp.length / 4 ∧
    b64decAll (sym2sext T) (if pos = inp.length / 4 then padCount T inp else 0) (inp.take (4 * pos)) = .ok out ∧
    r = { toUnitRec := busyRec T inp pos (inp.length / 4) out, RLUT := some (buildRlut64 T),
          npad := some (padCount T inp) }

/-- U0 serves the transaction of these operands: BUSY on it, or DONE with exactly its outcome. -/
def ServesU0 (T : List Sym) (inp : List Byte) (r : EncUnit) : Prop :=
  BusyU0 T inp r ∨ r = settled (b16enc inp T)

/-- U1 serves the transaction of these operands. -/
def ServesU1 (T inp : List Sym) (r : Dec16Unit) : Prop :=
  BusyU1 T inp r ∨ r = settledDec (b16dec inp T)

/-- U2 serves the transaction of these operands. -/
def ServesU2 (T : List Sym) (inp : List Byte) (r : EncUnit) : Prop :=
  BusyU2 T inp r ∨ r = settled (b64enc inp T)

/-- U3 serves the transaction of these operands. -/
def ServesU3 (T inp : List Sym) (r : Dec64Unit) : Prop :=
  BusyU3 T inp r ∨ r = settled64 (b64dec inp T)

/-! ## The invariant (R22, R30, R34) -/

/-- Every unit is as after RESET or serves the transaction of some operands. -/
def UnitsInv (s : State) : Prop :=
  (s.u0 = UnitRec.idle ∨ ∃ T inp, ServesU0 T inp s.u0) ∧
  (s.u1 = DecUnit.idle ∨ ∃ T inp, ServesU1 T inp s.u1) ∧
  (s.u2 = UnitRec.idle ∨ ∃ T inp, ServesU2 T inp s.u2) ∧
  (s.u3 = Dec64Unit.idle ∨ ∃ T inp, ServesU3 T inp s.u3)

/-- The invariant of the machine: from the first RESET on, `UnitsInv`. Before it nothing is known (R34). -/
def MachineInv (s : State) : Prop := s.wasReset = true → UnitsInv s

/-! ## Work left -/

/-- The unit actions a record still needs to reach DONE: the granules left and FINISH (R171, R211). -/
def recWork {α β : Type} (r : UnitRec α β) : Nat :=
  match r.phase, r.pos, r.ngran with
  | .busy, some p, some n => n - p + 1
  | _, _, _ => 0

/-- The unit actions unit `u` still needs. -/
def unitWork (u : UnitId) (s : State) : Nat :=
  match u with
  | .u0 => recWork s.u0
  | .u1 => recWork s.u1.toUnitRec
  | .u2 => recWork s.u2
  | .u3 => recWork s.u3.toUnitRec

/-- The unit actions all units still need. -/
def work (s : State) : Nat := unitWork .u0 s + unitWork .u1 s + unitWork .u2 s + unitWork .u3 s

/-- `k` moves of unit `u`, and nothing after them. -/
def unitMoves (u : UnitId) (k : Nat) (s : State) : State := { s with run := List.replicate k (.unit u) }

end Sys2Proof.Safety
end

