-- ==== Sys2Proof/Certificates/Slice0/Obligations.lean ====
section
/-! DEFINITION. The statements for the provers, each from the rules of spec/ its docstring names. There is no
statement about a program. Nothing is proved here. -/

open Sys2Proof Sys2Proof.Machine Sys2Proof.Safety

/-! ## Encoding -/

/-- R71: the eight command words, each with its operation; a sanity statement. -/
def Obligations.CommandWordsDecodeAsTabled : Prop :=
  decodeTableWord 8 0b000 = some (.b16enc false) ∧ decodeTableWord 8 0b100 = some (.b16enc true) ∧
  decodeTableWord 8 0b001 = some (.b16dec false) ∧ decodeTableWord 8 0b101 = some (.b16dec true) ∧
  decodeTableWord 8 0b010 = some (.b64enc false) ∧ decodeTableWord 8 0b110 = some (.b64enc true) ∧
  decodeTableWord 8 0b011 = some (.b64dec false) ∧ decodeTableWord 8 0b111 = some (.b64dec true)

/-- R70, R73: decoding an encoded instruction gives it back, every number below 8 is the word of exactly one
instruction, and a number that is not three bits wide is refused by name (that refusal is the model's, log 8). -/
def Obligations.EncodeAndDecodeAgree : Prop :=
  (∀ i : Instr, i.wellFormed = true → decodeWord (encode i).toNat = .ok i) ∧
  (∀ w, w < 8 → ∃ i, decodeWord w = .ok i ∧ i.wellFormed = true ∧ (encode i).toNat = w) ∧
  (∀ w, 8 ≤ w → decodeWord w = .error .widerThanThreeBits)

/-! ## Tables, lookups, datapath -/

/-- R77 (the spec's inference): both default tables are valid, so a command with `dflt = 1` fails on no table
check. -/
def Obligations.DefaultTablesAreValid : Prop :=
  ValidTable 16 defaultB16 ∧ ValidTable 65 defaultB64 ∧
  (∀ bytes r, b16enc bytes defaultB16 = .error r → r = .emptyInput) ∧
  (∀ syms r, b16dec syms defaultB16 = .error r → r ≠ .tableLength ∧ r ≠ .tableDuplicate) ∧
  (∀ bytes r, b64enc bytes defaultB64 = .error r → r = .emptyInput) ∧
  (∀ syms r, b64dec syms defaultB64 = .error r → r ≠ .tableLength ∧ r ≠ .tableDuplicate)

/-- R74: the four operations take exactly the valid tables: with a non-empty input, an encoder succeeds on a valid
table, and no operation succeeds on another. -/
def Obligations.TableCheckIsPairwiseDistinctness : Prop :=
  (∀ T bytes, bytes ≠ [] → ((∃ out, b16enc bytes T = .ok out) ↔ ValidTable 16 T)) ∧
  (∀ T bytes, bytes ≠ [] → ((∃ out, b64enc bytes T = .ok out) ↔ ValidTable 65 T)) ∧
  (∀ T syms out, b16dec syms T = .ok out → ValidTable 16 T) ∧
  (∀ T syms out, b64dec syms T = .ok out → ValidTable 65 T)

/-- R27: in a table without duplicates the reverse lookup gives the unique index of the entry, or NONE exactly for a
symbol that is no entry; the base64 sentinel is index 64 (R140). -/
def Obligations.ReverseLookupIsTheUniqueIndex : Prop :=
  ∀ T : List Sym, distinct T = true → ∀ x : Sym,
    (∀ i, rlut T x = some i ↔ T[i]? = some x) ∧ (rlut T x = none ↔ x ∉ T) ∧
    (T.length = 65 → (sym2val T x = some .pad ↔ T[64]? = some x) ∧
      ∀ v : Sext, (sym2val T x = some (.data v) ↔ T[v.toNat]? = some x))

/-- R112: pair recombine, `(h << 4) | l`, the first symbol of a pair giving the high nibble. -/
def Obligations.PairRecombine : Prop :=
  (∀ h l : Nib, (b16decPair h l).toNat = 16 * h.toNat + l.toNat ∧ hiNib (b16decPair h l) = h ∧
    loNib (b16decPair h l) = l) ∧
  (∀ T s0 s1 h l, sym2nib T s0 = some h → sym2nib T s1 = some l →
    b16decAll (sym2nib T) [s0, s1] = .ok [b16decPair h l])

/-- R80, R127, R143: the byte view and the sextet view of a 24-bit group value, as numbers. -/
def Obligations.GroupViewsAsNumbers : Prop :=
  (∀ b0 b1 b2 : Byte, ∀ v0 v1 v2 v3 : Sext, group3to4 b0 b1 b2 = (v0, v1, v2, v3) →
    let w := b0.toNat * 2 ^ 16 + b1.toNat * 2 ^ 8 + b2.toNat
    v0.toNat = w / 2 ^ 18 ∧ v1.toNat = w / 2 ^ 12 % 64 ∧ v2.toNat = w / 2 ^ 6 % 64 ∧ v3.toNat = w % 64) ∧
  (∀ v0 v1 v2 v3 : Sext, ∀ b0 b1 b2 : Byte, ungroup4to3 v0 v1 v2 v3 = (b0, b1, b2) →
    let w := v0.toNat * 2 ^ 18 + v1.toNat * 2 ^ 12 + v2.toNat * 2 ^ 6 + v3.toNat
    b0.toNat = w / 2 ^ 16 ∧ b1.toNat = w / 2 ^ 8 % 256 ∧ b2.toNat = w % 256)

/-- R143 (the spec's inference): grouper and ungrouper are inverse to each other. -/
def Obligations.GrouperAndUngrouperAreInverse : Prop :=
  (∀ b0 b1 b2 : Byte, ∀ v0 v1 v2 v3 : Sext, group3to4 b0 b1 b2 = (v0, v1, v2, v3) →
    ungroup4to3 v0 v1 v2 v3 = (b0, b1, b2)) ∧
  (∀ v0 v1 v2 v3 : Sext, ∀ b0 b1 b2 : Byte, ungroup4to3 v0 v1 v2 v3 = (b0, b1, b2) →
    group3to4 b0 b1 b2 = (v0, v1, v2, v3))

/-- R142: the placement check is the spec's condition on the set of padding positions, and when it passes npad is the
number of padding symbols and the last npad positions hold them (consequence (d) is the spec's inference). -/
def Obligations.PaddingCheckIsThePlacement : Prop :=
  ∀ T inp : List Sym, T.length = 65 → inp ≠ [] → inp.length % 4 = 0 →
    (misplacedPadding T inp = false ↔ PaddingPlaced T inp) ∧
    (PaddingPlaced T inp → ∀ i, i < inp.length →
      (inp[i]? = T[64]? ↔ inp.length ≤ i + (padCount T inp).val))

/-! ## The transaction functions -/

/-- R13: the length laws of the four operations. -/
def Obligations.LengthLaws : Prop :=
  (∀ bytes T out, b16enc bytes T = .ok out → out.length = 2 * bytes.length) ∧
  (∀ syms T out, b16dec syms T = .ok out → 2 * out.length = syms.length) ∧
  (∀ bytes T out, b64enc bytes T = .ok out → out.length = 4 * ((bytes.length + 2) / 3)) ∧
  (∀ syms T out, b64dec syms T = .ok out →
    4 ∣ syms.length ∧ out.length + (padCount T syms).val = 3 * (syms.length / 4))

/-- R14 (the spec's inference): a successful result is never empty. -/
def Obligations.SuccessIsNeverEmpty : Prop :=
  (∀ bytes T, b16enc bytes T ≠ .ok []) ∧ (∀ syms T, b16dec syms T ≠ .ok []) ∧
  (∀ bytes T, b64enc bytes T ≠ .ok []) ∧ (∀ syms T, b64dec syms T ≠ .ok [])

/-- R103 (b), (c): the output positions of B16ENC, high nibble first, and its alphabet. -/
def Obligations.Base16EncodePositions : Prop :=
  ∀ bytes T out, b16enc bytes T = .ok out →
    (∀ i b, bytes[i]? = some b →
      out[2 * i]? = T[b.toNat / 16]? ∧ out[2 * i + 1]? = T[b.toNat % 16]?) ∧ (∀ x ∈ out, x ∈ T)

/-- R131 (b) (the spec's inference): padding symbols stand in exactly the last `(3 - n mod 3) mod 3` positions of
B64ENC's output, and every other position holds a data symbol. -/
def Obligations.Base64EncodePadding : Prop :=
  ∀ bytes T out, b64enc bytes T = .ok out → ∀ i x, out[i]? = some x →
    (T[64]? = some x ↔ out.length ≤ i + (3 - bytes.length % 3) % 3) ∧
    (i + (3 - bytes.length % 3) % 3 < out.length → ∃ v, v < 64 ∧ T[v]? = some x)

/-- R103 (d), R131 (c), R206 (the spec's inferences): where a long input may be processed in pieces. -/
def Obligations.PiecewiseLaws : Prop :=
  (∀ x y T a b, b16enc x T = .ok a → b16enc y T = .ok b → b16enc (x ++ y) T = .ok (a ++ b)) ∧
  (∀ x y T a b, b16dec x T = .ok a → b16dec y T = .ok b → b16dec (x ++ y) T = .ok (a ++ b)) ∧
  (∀ x y T a b, x.length % 3 = 0 → b64enc x T = .ok a → b64enc y T = .ok b → b64enc (x ++ y) T = .ok (a ++ b)) ∧
  (∀ x y T a b, padCount T x = 0 → b64dec x T = .ok a → b64dec y T = .ok b → b64dec (x ++ y) T = .ok (a ++ b))

/-- R115 (c), (d): decoding an encoding gives the bytes back, and encoding a decoding gives the symbols back ((d) is
the spec's inference). -/
def Obligations.Base16RoundTrip : Prop :=
  (∀ bytes T out, b16enc bytes T = .ok out → b16dec out T = .ok bytes) ∧
  (∀ syms T out, b16dec syms T = .ok out → b16enc out T = .ok syms)

/-- R149 (c): decoding an encoding gives the bytes back. -/
def Obligations.Base64RoundTrip : Prop :=
  ∀ bytes T out, b64enc bytes T = .ok out → b64dec out T = .ok bytes

/-- R149 (d) (the spec's inference): encoding a decoding gives the symbols back exactly when the discarded bits of
R148 are zero. -/
def Obligations.Base64ReencodesCanonicalInput : Prop :=
  ∀ syms T out, b64dec syms T = .ok out → (b64enc out T = .ok syms ↔ DiscardedBitsZero T syms)

/-- R115 (b), R149 (b) (the spec's inferences): on what the decoders succeed. -/
def Obligations.DecodersSucceedExactly : Prop :=
  (∀ syms T, ValidTable 16 T → ((∃ out, b16dec syms T = .ok out) ↔
    2 ≤ syms.length ∧ syms.length % 2 = 0 ∧ ∀ x ∈ syms, x ∈ T)) ∧
  (∀ syms T, ValidTable 65 T → ((∃ out, b64dec syms T = .ok out) ↔
    4 ≤ syms.length ∧ syms.length % 4 = 0 ∧ PaddingPlaced T syms ∧ ∀ x ∈ syms, x ∈ T))

/-- R148: the low bits of the last data symbol of a padded group are dropped and not checked: with one padding symbol
the third sextet counts only by its upper four bits, with two the second only by its upper two. -/
def Obligations.DiscardedBitsAreDropped : Prop :=
  (∀ v0 v1 v2 v2' : Sext, v2.toNat / 4 = v2'.toNat / 4 → b64decGroup [v0, v1, v2] = b64decGroup [v0, v1, v2']) ∧
  (∀ v0 v1 v1' : Sext, v1.toNat / 16 = v1'.toNat / 16 → b64decGroup [v0, v1] = b64decGroup [v0, v1'])

/-- R182, R184: a failing operation reports the least code whose condition holds, and code 6 only when conditions 1 to
5 hold for none. -/
def Obligations.LeastReasonIsReported : Prop :=
  (∀ bytes T r, b16enc bytes T = .error r →
    LeastCondition (StartCondition 16 1 bytes.length T True) (reasonCode r).toNat) ∧
  (∀ syms T r, b16dec syms T = .error r →
    LeastCondition (StartCondition 16 2 syms.length T True) (reasonCode r).toNat ∨
    (r = .unknownSymbol ∧ NoCondition (StartCondition 16 2 syms.length T True) ∧ ∃ x ∈ syms, x ∉ T)) ∧
  (∀ bytes T r, b64enc bytes T = .error r →
    LeastCondition (StartCondition 65 1 bytes.length T True) (reasonCode r).toNat) ∧
  (∀ syms T r, b64dec syms T = .error r →
    LeastCondition (StartCondition 65 4 syms.length T (PaddingPlaced T syms)) (reasonCode r).toNat ∨
    (r = .unknownSymbol ∧ NoCondition (StartCondition 65 4 syms.length T (PaddingPlaced T syms)) ∧
      ∃ x ∈ syms, x ∉ T))

/-- R183 (the spec's inference): which operation can raise which reason. -/
def Obligations.ReasonsOfEachOperation : Prop :=
  (∀ r, (∃ bytes T, b16enc bytes T = .error r) ↔ r ∈ [Reason.emptyInput, .tableLength, .tableDuplicate]) ∧
  (∀ r, (∃ syms T, b16dec syms T = .error r) ↔
    r ∈ [Reason.emptyInput, .tableLength, .tableDuplicate, .inputLength, .unknownSymbol]) ∧
  (∀ r, (∃ bytes T, b64enc bytes T = .error r) ↔ r ∈ [Reason.emptyInput, .tableLength, .tableDuplicate]) ∧
  (∀ r, (∃ syms T, b64dec syms T = .error r) ↔
    r ∈ [Reason.emptyInput, .tableLength, .tableDuplicate, .inputLength, .padding, .unknownSymbol])

/-! ## START -/

/-- R161: a START to a unit that is not IDLE is dropped. Of an IDLE unit the least condition that holds is taken as
the failure; when none holds the operands are latched and the unit is BUSY at granule 0. COMPLETION of all four
commands. -/
def Obligations.StartTakesTheCommandOrFails : Prop :=
  (∀ (i : Instr) (s : State), s.wasReset = true → s.phase (unitOf i) ≠ .idle → exec i s = .next s) ∧
  (∀ (d : Bool) (s : State), s.wasReset = true → s.u0.phase = .idle → EncodeOperandsFit d s →
    let T := if d then defaultB16 else s.ports.tbl
    let inp := s.ports.inB
    let cond := StartCondition 16 1 inp.length T True
    (∀ r, LeastCondition cond (reasonCode r).toNat →
      exec (.b16enc d) s = .next { s with u0 := UnitRec.ended [] r }) ∧
    (NoCondition cond → exec (.b16enc d) s = .next { s with u0 := busyRec T inp 0 inp.length [] })) ∧
  (∀ (d : Bool) (s : State), s.wasReset = true → s.u1.phase = .idle → DecodeOperandsFit d s →
    let T := if d then defaultB16 else s.ports.tbl
    let inp := s.ports.inS
    let cond := StartCondition 16 2 inp.length T True
    (∀ r, LeastCondition cond (reasonCode r).toNat →
      exec (.b16dec d) s = .next { s with u1 := { toUnitRec := UnitRec.ended [] r, RLUT := none } }) ∧
    (NoCondition cond → ∃ rl : List (Sym × Nib),
      (∀ x, rl.lookup x = (rlut T x).map (BitVec.ofNat 4)) ∧
      exec (.b16dec d) s =
        .next { s with u1 := { toUnitRec := busyRec T inp 0 (inp.length / 2) [], RLUT := some rl } })) ∧
  (∀ (d : Bool) (s : State), s.wasReset = true → s.u2.phase = .idle → EncodeOperandsFit d s →
    let T := if d then defaultB64 else s.ports.tbl
    let inp := s.ports.inB
    let cond := StartCondition 65 1 inp.length T True
    (∀ r, LeastCondition cond (reasonCode r).toNat →
      exec (.b64enc d) s = .next { s with u2 := UnitRec.ended [] r }) ∧
    (NoCondition cond → exec (.b64enc d) s = .next { s with u2 := busyRec T inp 0 ((inp.length + 2) / 3) [] })) ∧
  (∀ (d : Bool) (s : State), s.wasReset = true → s.u3.phase = .idle → DecodeOperandsFit d s →
    let T := if d then defaultB64 else s.ports.tbl
    let inp := s.ports.inS
    let n := inp.length
    let cond := StartCondition 65 4 n T (PaddingPlaced T inp)
    (∀ r, LeastCondition cond (reasonCode r).toNat →
      exec (.b64dec d) s = .next { s with u3 := { toUnitRec := UnitRec.ended [] r, RLUT := none, npad := none } }) ∧
    (NoCondition cond → ∃ (rl : List (Sym × SymVal)) (p : Fin 3),
      (∀ x, rl.lookup x = (rlut T x).map fun i => if i = 64 then SymVal.pad else .data (BitVec.ofNat 6 i)) ∧
      p.val = (if inp[n - 2]? = T[64]? then 1 else 0) + (if inp[n - 1]? = T[64]? then 1 else 0) ∧
      exec (.b64dec d) s =
        .next { s with u3 := { toUnitRec := busyRec T inp 0 (n / 4) [], RLUT := some rl, npad := some p } }))

/-- R162: a START to a unit that is not IDLE changes nothing, and `ready` tells so; a START to one unit does not depend
on the other three. -/
def Obligations.StartToABusyUnitIsDropped : Prop :=
  (∀ (i : Instr) (s : State), s.wasReset = true → s.phase (unitOf i) ≠ .idle →
    exec i s = .next s ∧ s.ready (unitOf i) = false) ∧
  (∀ (i : Instr) (s s' t : State), SameUnit (unitOf i) s s' → SameAround s s' → exec i s = .next t →
    ∃ t', exec i s' = .next t' ∧ SameUnit (unitOf i) t t')

/-- R212, U7, U16 (what a model refuses): a command to an IDLE unit whose operands the ports or the unit cannot carry
answers no next state; the three refusals are the only ones of a command to it after RESET (their names and order are
the model's, log 1 and log 7). -/
def Obligations.OperandsBeyondTheBoundsAreRefused : Prop :=
  (∀ (i : Instr) (d : Bool) (s : State), s.wasReset = true → s.phase (unitOf i) = .idle →
    i = .b16enc d ∨ i = .b64enc d →
    ((∃ t, exec i s = .next t) ↔ EncodeOperandsFit d s) ∧
    (∀ r, exec i s = .refused r → r = .tableTooLong ∨ r = .symbolTooWide ∨ r = .inputTooLong)) ∧
  (∀ (i : Instr) (d : Bool) (s : State), s.wasReset = true → s.phase (unitOf i) = .idle →
    i = .b16dec d ∨ i = .b64dec d →
    ((∃ t, exec i s = .next t) ↔ DecodeOperandsFit d s) ∧
    (∀ r, exec i s = .refused r → r = .tableTooLong ∨ r = .symbolTooWide ∨ r = .inputTooLong))

/-- The frame of the four commands (R20, R160): only the record of the command's own unit can change; the other three
units, the ports, the moves to come, the parameters and the RESET mark are as before. -/
def Obligations.CommandFrame : Prop :=
  ∀ (i : Instr) (s t : State), exec i s = .next t →
    SameAround s t ∧ ∀ u, u ≠ unitOf i → SameUnit u s t

/-! ## Granule steps -/

/-- R102: the granule step of U0, and what stands in OUT when it has no granule left and FINISH applies. -/
def Obligations.GranuleOfB16enc : Prop :=
  (∀ (s : State) (T : List Sym) (inp : List Byte) (g : Nat) (out : List Sym) (b : Byte),
    s.u0 = busyRec T inp g inp.length out → T.length = 16 → inp[g]? = some b → out.length = 2 * g →
    ∃ sh sl, T[b.toNat / 16]? = some sh ∧ T[b.toNat % 16]? = some sl ∧
      unitAct .u0 s = .next { s with u0 := busyRec T inp (g + 1) inp.length (out ++ [sh, sl]) }) ∧
  (∀ (s : State) (T : List Sym) (inp : List Byte), BusyU0 T inp s.u0 → s.u0.pos = s.u0.ngran →
    ∃ out, s.u0.OUT = some out ∧ out.length = 2 * inp.length ∧
      unitAct .u0 s = .next { s with u0 := UnitRec.ended out .ok })

/-- R114: the granule step of U1: a byte from two known symbols, or the failure of an unknown one; and what stands in
OUT when it has no granule left and FINISH applies. -/
def Obligations.GranuleOfB16dec : Prop :=
  (∀ (s : State) (T inp : List Sym) (rl : List (Sym × Nib)) (g : Nat) (out : List Byte) (s0 s1 : Sym),
    s.u1 = { toUnitRec := busyRec T inp g (inp.length / 2) out, RLUT := some rl } →
    inp[2 * g]? = some s0 → inp[2 * g + 1]? = some s1 → out.length = g →
    (rl.lookup s0 = none ∨ rl.lookup s1 = none →
      unitAct .u1 s = .next { s with u1 := { toUnitRec := UnitRec.ended [] .unknownSymbol, RLUT := none } }) ∧
    (∀ h l, rl.lookup s0 = some h → rl.lookup s1 = some l →
      let out' := out ++ [BitVec.ofNat 8 (16 * h.toNat + l.toNat)]
      unitAct .u1 s =
        .next { s with u1 := { toUnitRec := busyRec T inp (g + 1) (inp.length / 2) out', RLUT := some rl } })) ∧
  (∀ (s : State) (T inp : List Sym), BusyU1 T inp s.u1 → s.u1.pos = s.u1.ngran →
    ∃ out, s.u1.OUT = some out ∧ out.length = inp.length / 2 ∧
      unitAct .u1 s = .next { s with u1 := { toUnitRec := UnitRec.ended out .ok, RLUT := none } })

/-- R130, R129, R128: the granule step of U2, tail granules included (a byte that is not there counts as zero, and its
symbol is the padding symbol); and what stands in OUT when it has no granule left and FINISH applies. -/
def Obligations.GranuleOfB64enc : Prop :=
  (∀ (s : State) (T : List Sym) (inp : List Byte) (g : Nat) (out : List Sym),
    s.u2 = busyRec T inp g ((inp.length + 2) / 3) out → T.length = 65 → g < (inp.length + 2) / 3 →
    out.length = 4 * g →
    let k := min 3 (inp.length - 3 * g)
    let w := (inp.getD (3 * g) 0).toNat * 2 ^ 16 + (inp.getD (3 * g + 1) 0).toNat * 2 ^ 8 +
      (inp.getD (3 * g + 2) 0).toNat
    (k < 3 → g + 1 = (inp.length + 2) / 3 ∧ k = inp.length % 3) ∧
    ∃ y0 y1 y2 y3, T[w / 2 ^ 18]? = some y0 ∧ T[w / 2 ^ 12 % 64]? = some y1 ∧
      T[if 2 ≤ k then w / 2 ^ 6 % 64 else 64]? = some y2 ∧ T[if k = 3 then w % 64 else 64]? = some y3 ∧
      unitAct .u2 s =
        .next { s with u2 := busyRec T inp (g + 1) ((inp.length + 2) / 3) (out ++ [y0, y1, y2, y3]) }) ∧
  (∀ (s : State) (T : List Sym) (inp : List Byte), BusyU2 T inp s.u2 → s.u2.pos = s.u2.ngran →
    ∃ out, s.u2.OUT = some out ∧ out.length = 4 * ((inp.length + 2) / 3) ∧
      unitAct .u2 s = .next { s with u2 := UnitRec.ended out .ok })

/-- R146, R144: the granule step of U3: `m` data symbols (4, or 4 - npad in the last group), their sextets packed with
zeros in the padding slots, `m - 1` bytes; or the failure of an unknown symbol; and what stands in OUT when it has no
granule left and FINISH applies (the invariant behind that is the spec's inference). -/
def Obligations.GranuleOfB64dec : Prop :=
  (∀ (s : State) (T inp : List Sym) (rl : List (Sym × SymVal)) (p : Fin 3) (g : Nat) (out : List Byte),
    s.u3 = { toUnitRec := busyRec T inp g (inp.length / 4) out, RLUT := some rl, npad := some p } →
    g < inp.length / 4 →
    let m := if g + 1 < inp.length / 4 ∨ p = 0 then 4 else 4 - p.val
    ((∃ i x, i < m ∧ inp[4 * g + i]? = some x ∧ rl.lookup x = none) →
      unitAct .u3 s =
        .next { s with u3 := { toUnitRec := UnitRec.ended [] .unknownSymbol, RLUT := none, npad := none } }) ∧
    (∀ vs : List Sext, vs.length = m →
      (∀ i v, vs[i]? = some v → ∃ x, inp[4 * g + i]? = some x ∧ rl.lookup x = some (.data v)) →
      let w := (vs.getD 0 0).toNat * 2 ^ 18 + (vs.getD 1 0).toNat * 2 ^ 12 + (vs.getD 2 0).toNat * 2 ^ 6 +
        (vs.getD 3 0).toNat
      let out' := out ++ [BitVec.ofNat 8 (w / 2 ^ 16), BitVec.ofNat 8 (w / 2 ^ 8), BitVec.ofNat 8 w].take (m - 1)
      let r' := busyRec T inp (g + 1) (inp.length / 4) out'
      unitAct .u3 s = .next { s with u3 := { toUnitRec := r', RLUT := some rl, npad := some p } })) ∧
  (∀ (s : State) (T inp : List Sym), BusyU3 T inp s.u3 → s.u3.pos = s.u3.ngran →
    ∃ out, s.u3.OUT = some out ∧ out.length + (padCount T inp).val = 3 * (inp.length / 4) ∧
      unitAct .u3 s = .next { s with u3 := { toUnitRec := UnitRec.ended out .ok, RLUT := none, npad := none } })

/-- R164: FINISH gives RES all of OUT, reason 0 and DONE, with every working field invalid; RES is then the complete
result of the transaction function. -/
def Obligations.FinishGivesTheWholeResult : Prop :=
  (∀ (s : State) T inp n out, s.u0 = busyRec T inp n n out →
    unitAct .u0 s = .next { s with u0 := UnitRec.ended out .ok }) ∧
  (∀ (s : State) T inp n out rl, s.u1 = { toUnitRec := busyRec T inp n n out, RLUT := rl } →
    unitAct .u1 s = .next { s with u1 := { toUnitRec := UnitRec.ended out .ok, RLUT := none } }) ∧
  (∀ (s : State) T inp n out, s.u2 = busyRec T inp n n out →
    unitAct .u2 s = .next { s with u2 := UnitRec.ended out .ok }) ∧
  (∀ (s : State) T inp n out rl p, s.u3 = { toUnitRec := busyRec T inp n n out, RLUT := rl, npad := p } →
    unitAct .u3 s = .next { s with u3 := { toUnitRec := UnitRec.ended out .ok, RLUT := none, npad := none } }) ∧
  (∀ T inp r, BusyU0 T inp r → r.pos = r.ngran → ∃ out, r.OUT = some out ∧ b16enc inp T = .ok out) ∧
  (∀ T inp r, BusyU1 T inp r → r.pos = r.ngran → ∃ out, r.OUT = some out ∧ b16dec inp T = .ok out) ∧
  (∀ T inp r, BusyU2 T inp r → r.pos = r.ngran → ∃ out, r.OUT = some out ∧ b64enc inp T = .ok out) ∧
  (∀ T inp r, BusyU3 T inp r → r.pos = r.ngran → ∃ out, r.OUT = some out ∧ b64dec inp T = .ok out)

/-- The frame of the unit actions (R20, R193): a STEP, FAIL or FINISH of one unit changes that unit's record only. -/
def Obligations.UnitActionFrame : Prop :=
  ∀ (u : UnitId) (s t : State), unitAct u s = .next t →
    SameAround s t ∧ ∀ v, v ≠ u → SameUnit v s t

/-- R168 (the spec's inference), R61: the actions of two units commute. -/
def Obligations.UnitActionsCommute : Prop :=
  ∀ (u v : UnitId) (s s1 s2 : State), u ≠ v → unitAct u s = .next s1 → unitAct v s1 = .next s2 →
    ∃ s1', unitAct v s = .next s1' ∧ unitAct u s1' = .next s2

/-! ## Host moves -/

/-- R165: ACK releases a DONE unit to exactly its reset state and has no effect on another; until a move that acks or
resets it, nothing changes what a DONE unit holds. -/
def Obligations.AckReleasesADoneUnit : Prop :=
  (∀ (s : State) p rest, s.wasReset = true → s.run = .host p :: rest → p.reset = false → p.cmdValid = false →
    ∃ t, step s = .next t ∧ ∀ u, (p.ack u = true ∧ s.phase u = .done → UnitReset u t) ∧
      (¬ (p.ack u = true ∧ s.phase u = .done) → SameUnit u s t)) ∧
  (∀ (s t : State) u, step s = .next t → s.phase u = .done → ¬ Releases u s → SameUnit u s t)

/-- R166: RESET takes every unit, whatever its phase, to its reset state; the parameters and what is to come stand. -/
def Obligations.ResetReturnsEveryUnit : Prop :=
  ∀ (s : State) p rest, s.run = .host p :: rest → p.reset = true → p.cmdValid = false →
    ∃ t, step s = .next t ∧ (∀ u, UnitReset u t) ∧ t.wasReset = true ∧ t.params = s.params ∧ t.run = rest ∧
      ∀ u, UnitReset u s → SameUnit u s t

/-- R172: signals asserted together in one host move act in the order RESET, ACKs, START. -/
def Obligations.HostSignalsActInOrder : Prop :=
  (∀ (s : State) p rest, s.run = .host p :: rest → p.reset = true → p.cmdValid = true →
    step s = exec (decodeCmd p.cmd)
      { State.reset with ports := p, run := rest, turns := s.turns, params := s.params }) ∧
  (∀ (s : State) p rest, s.wasReset = true → s.run = .host p :: rest → p.reset = false → p.cmdValid = true →
    ∃ t, step s = exec (decodeCmd p.cmd) t ∧
      t.ports = p ∧ t.run = rest ∧ t.turns = s.turns ∧ t.wasReset = true ∧ t.params = s.params ∧
      ∀ u, (p.ack u = true ∧ s.phase u = .done → UnitReset u t) ∧
        (¬ (p.ack u = true ∧ s.phase u = .done) → SameUnit u s t))

/-- A STEP RUNS THE DECODED INSTRUCTION (R160, R161): a host move that presents a command word and no other signal is
exec of the decoded instruction with the move's operands at the ports; a unit's move is its action (the list of moves
is the model's, log 4). -/
def Obligations.StepRunsTheDecodedCommand : Prop :=
  (∀ (s : State) p rest, s.wasReset = true → s.run = .host p :: rest → p.cmdValid = true → p.reset = false →
    (∀ u, p.ack u = false) → step s = exec (decodeCmd p.cmd) { s with ports := p, run := rest }) ∧
  (∀ (s : State) u rest, s.wasReset = true → s.run = .unit u :: rest →
    step s = unitAct u { s with run := rest })

/-- The host's placement of a command word: the very next step runs the decoded instruction on the operands that
stand at the ports, and the moves to come stand (the placement is the model's, log 3). -/
def Obligations.PlacedCommandWordRuns : Prop :=
  ∀ (s : State) (nbits w : Nat) (i : Instr), s.wasReset = true → decodeTableWord nbits w = some i →
    step (s.withFetchWord nbits w) = exec i { s with ports := presenting s.ports w }

/-- R201, R212, U10 (what a model refuses, log 6): before the first RESET every move but one that asserts `reset` is
refused, and so is a command. -/
def Obligations.NothingRunsBeforeTheFirstReset : Prop :=
  ∀ s : State, s.wasReset = false →
    (∀ i, exec i s = .refused .beforeReset) ∧
    ((∀ p rest, s.run = .host p :: rest → p.reset = false) → step s = .refused .beforeReset)

/-! ## Reset, invariants, progress -/

/-- R34, R35: after RESET every unit is IDLE with every other field invalid; every unit is ready and none done, and
the host reads no result. -/
def Obligations.ResetStateAsTheHostSeesIt : Prop :=
  NothingValid State.reset.u0 ∧ NothingValid State.reset.u2 ∧
  (NothingValid State.reset.u1.toUnitRec ∧ State.reset.u1.RLUT = none) ∧
  (NothingValid State.reset.u3.toUnitRec ∧ State.reset.u3.RLUT = none ∧ State.reset.u3.npad = none) ∧
  ∀ u, State.reset.ready u = true ∧ State.reset.done u = false ∧ State.reset.resLen u = none ∧
    State.reset.reason u = none ∧ State.reset.phase u = .idle

/-- The invariant holds right after RESET. -/
def Obligations.ResetMeetsTheInvariant : Prop := MachineInv State.reset

/-- R22, R30, R171, R188: EVERY STEP KEEPS THE INVARIANT: each unit is as after RESET, or is BUSY with the granules
before pos done and nothing else valid, or is DONE with exactly the outcome of some transaction. -/
def Obligations.EveryStepKeepsTheInvariant : Prop :=
  ∀ s t : State, MachineInv s → step s = .next t → MachineInv t

/-- R29, R171: from a state that meets the invariant no step faults: no invalid field is read, no index is out of
range, no unit is stuck. -/
def Obligations.NoFaultUnderTheInvariant : Prop :=
  ∀ s : State, MachineInv s → ∀ f, step s ≠ .fault f

/-- R168, R3, R61: UNDER EVERY SCHEDULE A TRANSACTION COMES TO ITS OWN RESULT: whatever step is taken (of the host, of
this unit, of another), a unit that serves a transaction goes on serving that one, and when it is DONE it holds the
transaction function's outcome; only a move that resets or acks it ends that. -/
def Obligations.EveryScheduleServesTheTransaction : Prop :=
  ∀ s t : State, step s = .next t →
    (∀ T inp, ¬ Releases .u0 s → ServesU0 T inp s.u0 → ServesU0 T inp t.u0) ∧
    (∀ T inp, ¬ Releases .u1 s → ServesU1 T inp s.u1 → ServesU1 T inp t.u1) ∧
    (∀ T inp, ¬ Releases .u2 s → ServesU2 T inp s.u2 → ServesU2 T inp t.u2) ∧
    (∀ T inp, ¬ Releases .u3 s → ServesU3 T inp s.u3 → ServesU3 T inp t.u3)

/-- R171, R211: the action of a BUSY unit is always taken, and leaves exactly one action less to DONE, or ends the
transaction at once with reason 6. -/
def Obligations.ABusyUnitAlwaysProgresses : Prop :=
  ∀ (s : State) (u : UnitId), UnitsInv s → s.phase u = .busy →
    0 < unitWork u s ∧ ∃ t, unitAct u s = .next t ∧
      (unitWork u t + 1 = unitWork u s ∨ (t.phase u = .done ∧ t.reason u = some 6)) ∧
      (unitWork u t = 0 ↔ t.phase u = .done)

/-- R168 (weak fairness), R171: with no move listed, every BUSY unit reaches DONE within the actions that are left,
whichever unit the free choice takes first, and after that nothing changes (the moves as a list and the choice are the
model's, log 4 and log 5). -/
def Obligations.EveryTransactionEnds : Prop :=
  ∀ s : State, s.wasReset = true → UnitsInv s → s.run = [] →
    ∃ t, (∀ k, Host.Core.run core (work s + k) s = .next t) ∧ (∀ u, t.phase u ≠ .busy) ∧ UnitsInv t

/-- R28, R35, R181: what the host reads of a DONE unit: `fail` exactly when the reason is not 0, a result and a reason
(never 7) always, and a result that is empty exactly on failure; of another unit it reads none of them (log 9). -/
def Obligations.OutputsOfADoneUnit : Prop :=
  ∀ (s : State) (u : UnitId), UnitsInv s →
    (s.done u = true → ∃ n c, s.resLen u = some n ∧ s.reason u = some c ∧ c ≠ 7 ∧
      (s.fail u = true ↔ n = 0) ∧ (s.fail u = true ↔ c ≠ 0)) ∧
    (s.done u = false → s.fail u = false ∧ s.resLen u = none ∧ s.reason u = none)

/-- The frame of a step (R160): no step changes the parameters or takes back the RESET mark. -/
def Obligations.StepKeepsParametersAndResetMark : Prop :=
  ∀ s t : State, step s = .next t → t.params = s.params ∧ t.wasReset = true

/-! ## The machine against the transaction functions (R10) -/

/-- R103 (f) (the spec's inference): START of an IDLE U0 and `n + 1` of its actions give RES the transaction function's
result, or the failure it gives; the other units are as before. COMPLETION of B16ENC to its result. -/
def Obligations.B16encMachineIsTheFunction : Prop :=
  ∀ (d : Bool) (s : State) (k : Nat), s.wasReset = true → s.u0.phase = .idle → EncodeOperandsFit d s →
    s.ports.inB.length + 1 ≤ k →
    ∃ t t', exec (.b16enc d) s = .next t ∧ Host.Core.run core k (unitMoves .u0 k t) = .next t' ∧
      t'.u0 = settled (b16enc s.ports.inB (if d then defaultB16 else s.ports.tbl)) ∧
      t'.u1 = s.u1 ∧ t'.u2 = s.u2 ∧ t'.u3 = s.u3

/-- R115 (f) (the spec's inference): START of an IDLE U1 and `n/2 + 1` of its actions. COMPLETION of B16DEC to its
result. -/
def Obligations.B16decMachineIsTheFunction : Prop :=
  ∀ (d : Bool) (s : State) (k : Nat), s.wasReset = true → s.u1.phase = .idle → DecodeOperandsFit d s →
    s.ports.inS.length / 2 + 1 ≤ k →
    ∃ t t', exec (.b16dec d) s = .next t ∧ Host.Core.run core k (unitMoves .u1 k t) = .next t' ∧
      t'.u1 = settledDec (b16dec s.ports.inS (if d then defaultB16 else s.ports.tbl)) ∧
      t'.u0 = s.u0 ∧ t'.u2 = s.u2 ∧ t'.u3 = s.u3

/-- R131 (e) (the spec's inference): START of an IDLE U2 and `ceil(n/3) + 1` of its actions. COMPLETION of B64ENC to its
result. -/
def Obligations.B64encMachineIsTheFunction : Prop :=
  ∀ (d : Bool) (s : State) (k : Nat), s.wasReset = true → s.u2.phase = .idle → EncodeOperandsFit d s →
    (s.ports.inB.length + 2) / 3 + 1 ≤ k →
    ∃ t t', exec (.b64enc d) s = .next t ∧ Host.Core.run core k (unitMoves .u2 k t) = .next t' ∧
      t'.u2 = settled (b64enc s.ports.inB (if d then defaultB64 else s.ports.tbl)) ∧
      t'.u0 = s.u0 ∧ t'.u1 = s.u1 ∧ t'.u3 = s.u3

/-- R149 (e) (the spec's inference): START of an IDLE U3 and `n/4 + 1` of its actions. COMPLETION of B64DEC to its
result. -/
def Obligations.B64decMachineIsTheFunction : Prop :=
  ∀ (d : Bool) (s : State) (k : Nat), s.wasReset = true → s.u3.phase = .idle → DecodeOperandsFit d s →
    s.ports.inS.length / 4 + 1 ≤ k →
    ∃ t t', exec (.b64dec d) s = .next t ∧ Host.Core.run core k (unitMoves .u3 k t) = .next t' ∧
      t'.u3 = settled64 (b64dec s.ports.inS (if d then defaultB64 else s.ports.tbl)) ∧
      t'.u0 = s.u0 ∧ t'.u1 = s.u1 ∧ t'.u2 = s.u2
end

