-- ==== Sys2Proof/Laws/State.lean ====
section
/-! SUPPORT. One lemma per field per update, so that no later proof unfolds a record update. -/

namespace Sys2Proof.Machine

@[simp] theorem UnitRec.idle_phase {α β : Type} : (UnitRec.idle : UnitRec α β).phase = .idle := rfl
@[simp] theorem UnitRec.idle_T {α β : Type} : (UnitRec.idle : UnitRec α β).T = none := rfl
@[simp] theorem UnitRec.idle_IN {α β : Type} : (UnitRec.idle : UnitRec α β).IN = none := rfl
@[simp] theorem UnitRec.idle_pos {α β : Type} : (UnitRec.idle : UnitRec α β).pos = none := rfl
@[simp] theorem UnitRec.idle_ngran {α β : Type} : (UnitRec.idle : UnitRec α β).ngran = none := rfl
@[simp] theorem UnitRec.idle_OUT {α β : Type} : (UnitRec.idle : UnitRec α β).OUT = none := rfl
@[simp] theorem UnitRec.idle_RES {α β : Type} : (UnitRec.idle : UnitRec α β).RES = none := rfl
@[simp] theorem UnitRec.idle_reason {α β : Type} : (UnitRec.idle : UnitRec α β).reason = none := rfl

@[simp] theorem UnitRec.ended_phase {α β : Type} (res : List β) (rsn : Reason) : (UnitRec.ended res rsn : UnitRec α β).phase = .done := rfl
@[simp] theorem UnitRec.ended_T {α β : Type} (res : List β) (rsn : Reason) : (UnitRec.ended res rsn : UnitRec α β).T = none := rfl
@[simp] theorem UnitRec.ended_IN {α β : Type} (res : List β) (rsn : Reason) : (UnitRec.ended res rsn : UnitRec α β).IN = none := rfl
@[simp] theorem UnitRec.ended_pos {α β : Type} (res : List β) (rsn : Reason) : (UnitRec.ended res rsn : UnitRec α β).pos = none := rfl
@[simp] theorem UnitRec.ended_ngran {α β : Type} (res : List β) (rsn : Reason) : (UnitRec.ended res rsn : UnitRec α β).ngran = none := rfl
@[simp] theorem UnitRec.ended_OUT {α β : Type} (res : List β) (rsn : Reason) : (UnitRec.ended res rsn : UnitRec α β).OUT = none := rfl
@[simp] theorem UnitRec.ended_RES {α β : Type} (res : List β) (rsn : Reason) : (UnitRec.ended res rsn : UnitRec α β).RES = some res := rfl
@[simp] theorem UnitRec.ended_reason {α β : Type} (res : List β) (rsn : Reason) : (UnitRec.ended res rsn : UnitRec α β).reason = some rsn := rfl

@[simp] theorem UnitRec.failed_phase {α β : Type} (rsn : Reason) : (UnitRec.failed rsn : UnitRec α β).phase = .done := rfl
@[simp] theorem UnitRec.failed_T {α β : Type} (rsn : Reason) : (UnitRec.failed rsn : UnitRec α β).T = none := rfl
@[simp] theorem UnitRec.failed_IN {α β : Type} (rsn : Reason) : (UnitRec.failed rsn : UnitRec α β).IN = none := rfl
@[simp] theorem UnitRec.failed_pos {α β : Type} (rsn : Reason) : (UnitRec.failed rsn : UnitRec α β).pos = none := rfl
@[simp] theorem UnitRec.failed_ngran {α β : Type} (rsn : Reason) : (UnitRec.failed rsn : UnitRec α β).ngran = none := rfl
@[simp] theorem UnitRec.failed_OUT {α β : Type} (rsn : Reason) : (UnitRec.failed rsn : UnitRec α β).OUT = none := rfl
@[simp] theorem UnitRec.failed_RES {α β : Type} (rsn : Reason) : (UnitRec.failed rsn : UnitRec α β).RES = some [] := rfl
@[simp] theorem UnitRec.failed_reason {α β : Type} (rsn : Reason) : (UnitRec.failed rsn : UnitRec α β).reason = some rsn := rfl

@[simp] theorem UnitRec.started_phase {α β : Type} (T : List Sym) (inp : List α) (n : Nat) : (UnitRec.started T inp n : UnitRec α β).phase = .busy := rfl
@[simp] theorem UnitRec.started_T {α β : Type} (T : List Sym) (inp : List α) (n : Nat) : (UnitRec.started T inp n : UnitRec α β).T = some T := rfl
@[simp] theorem UnitRec.started_IN {α β : Type} (T : List Sym) (inp : List α) (n : Nat) : (UnitRec.started T inp n : UnitRec α β).IN = some inp := rfl
@[simp] theorem UnitRec.started_pos {α β : Type} (T : List Sym) (inp : List α) (n : Nat) : (UnitRec.started T inp n : UnitRec α β).pos = some 0 := rfl
@[simp] theorem UnitRec.started_ngran {α β : Type} (T : List Sym) (inp : List α) (n : Nat) : (UnitRec.started T inp n : UnitRec α β).ngran = some n := rfl
@[simp] theorem UnitRec.started_OUT {α β : Type} (T : List Sym) (inp : List α) (n : Nat) : (UnitRec.started T inp n : UnitRec α β).OUT = some [] := rfl
@[simp] theorem UnitRec.started_RES {α β : Type} (T : List Sym) (inp : List α) (n : Nat) : (UnitRec.started T inp n : UnitRec α β).RES = none := rfl
@[simp] theorem UnitRec.started_reason {α β : Type} (T : List Sym) (inp : List α) (n : Nat) : (UnitRec.started T inp n : UnitRec α β).reason = none := rfl

@[simp] theorem UnitRec.advanced_phase {α β : Type} (r : UnitRec α β) (out : List β) (p : Nat) : (r.advanced out p).phase = r.phase := rfl
@[simp] theorem UnitRec.advanced_T {α β : Type} (r : UnitRec α β) (out : List β) (p : Nat) : (r.advanced out p).T = r.T := rfl
@[simp] theorem UnitRec.advanced_IN {α β : Type} (r : UnitRec α β) (out : List β) (p : Nat) : (r.advanced out p).IN = r.IN := rfl
@[simp] theorem UnitRec.advanced_pos {α β : Type} (r : UnitRec α β) (out : List β) (p : Nat) : (r.advanced out p).pos = some p := rfl
@[simp] theorem UnitRec.advanced_ngran {α β : Type} (r : UnitRec α β) (out : List β) (p : Nat) : (r.advanced out p).ngran = r.ngran := rfl
@[simp] theorem UnitRec.advanced_OUT {α β : Type} (r : UnitRec α β) (out : List β) (p : Nat) : (r.advanced out p).OUT = some out := rfl
@[simp] theorem UnitRec.advanced_RES {α β : Type} (r : UnitRec α β) (out : List β) (p : Nat) : (r.advanced out p).RES = r.RES := rfl
@[simp] theorem UnitRec.advanced_reason {α β : Type} (r : UnitRec α β) (out : List β) (p : Nat) : (r.advanced out p).reason = r.reason := rfl

@[simp] theorem DecUnit.idle_toUnitRec {ν : Type} : (DecUnit.idle : DecUnit ν).toUnitRec = UnitRec.idle := rfl
@[simp] theorem DecUnit.idle_RLUT {ν : Type} : (DecUnit.idle : DecUnit ν).RLUT = none := rfl
@[simp] theorem DecUnit.failed_toUnitRec {ν : Type} (r : Reason) : (DecUnit.failed r : DecUnit ν).toUnitRec = UnitRec.failed r := rfl
@[simp] theorem DecUnit.failed_RLUT {ν : Type} (r : Reason) : (DecUnit.failed r : DecUnit ν).RLUT = none := rfl
@[simp] theorem Dec64Unit.idle_toDecUnit : Dec64Unit.idle.toDecUnit = DecUnit.idle := rfl
@[simp] theorem Dec64Unit.idle_npad : Dec64Unit.idle.npad = none := rfl
@[simp] theorem Dec64Unit.failed_toDecUnit (r : Reason) : (Dec64Unit.failed r).toDecUnit = DecUnit.failed r := rfl
@[simp] theorem Dec64Unit.failed_npad (r : Reason) : (Dec64Unit.failed r).npad = none := rfl

@[simp] theorem resetAll_u0 (s : State) : (resetAll s).u0 = UnitRec.idle := rfl
@[simp] theorem resetAll_u1 (s : State) : (resetAll s).u1 = DecUnit.idle := rfl
@[simp] theorem resetAll_u2 (s : State) : (resetAll s).u2 = UnitRec.idle := rfl
@[simp] theorem resetAll_u3 (s : State) : (resetAll s).u3 = Dec64Unit.idle := rfl
@[simp] theorem resetAll_ports (s : State) : (resetAll s).ports = s.ports := rfl
@[simp] theorem resetAll_run (s : State) : (resetAll s).run = s.run := rfl
@[simp] theorem resetAll_turns (s : State) : (resetAll s).turns = s.turns := rfl
@[simp] theorem resetAll_wasReset (s : State) : (resetAll s).wasReset = true := rfl
@[simp] theorem resetAll_params (s : State) : (resetAll s).params = s.params := rfl

@[simp] theorem ackAll_u0 (s : State) : (ackAll s).u0 = (if s.ports.ack0 then s.u0.acked else s.u0) := rfl
@[simp] theorem ackAll_u1 (s : State) : (ackAll s).u1 = (if s.ports.ack1 then s.u1.acked else s.u1) := rfl
@[simp] theorem ackAll_u2 (s : State) : (ackAll s).u2 = (if s.ports.ack2 then s.u2.acked else s.u2) := rfl
@[simp] theorem ackAll_u3 (s : State) : (ackAll s).u3 = (if s.ports.ack3 then s.u3.acked else s.u3) := rfl
@[simp] theorem ackAll_ports (s : State) : (ackAll s).ports = s.ports := rfl
@[simp] theorem ackAll_run (s : State) : (ackAll s).run = s.run := rfl
@[simp] theorem ackAll_turns (s : State) : (ackAll s).turns = s.turns := rfl
@[simp] theorem ackAll_wasReset (s : State) : (ackAll s).wasReset = s.wasReset := rfl
@[simp] theorem ackAll_params (s : State) : (ackAll s).params = s.params := rfl

@[simp] theorem presenting_reset (p : Ports) (w : Nat) : (presenting p w).reset = false := rfl
@[simp] theorem presenting_cmdValid (p : Ports) (w : Nat) : (presenting p w).cmdValid = decide (w < 8) := rfl
@[simp] theorem presenting_cmd (p : Ports) (w : Nat) : (presenting p w).cmd = BitVec.ofNat 3 w := rfl
@[simp] theorem presenting_tbl (p : Ports) (w : Nat) : (presenting p w).tbl = p.tbl := rfl
@[simp] theorem presenting_inB (p : Ports) (w : Nat) : (presenting p w).inB = p.inB := rfl
@[simp] theorem presenting_inS (p : Ports) (w : Nat) : (presenting p w).inS = p.inS := rfl
@[simp] theorem presenting_ack0 (p : Ports) (w : Nat) : (presenting p w).ack0 = false := rfl
@[simp] theorem presenting_ack1 (p : Ports) (w : Nat) : (presenting p w).ack1 = false := rfl
@[simp] theorem presenting_ack2 (p : Ports) (w : Nat) : (presenting p w).ack2 = false := rfl
@[simp] theorem presenting_ack3 (p : Ports) (w : Nat) : (presenting p w).ack3 = false := rfl

@[simp] theorem State.reset_u0 : State.reset.u0 = UnitRec.idle := rfl
@[simp] theorem State.reset_u1 : State.reset.u1 = DecUnit.idle := rfl
@[simp] theorem State.reset_u2 : State.reset.u2 = UnitRec.idle := rfl
@[simp] theorem State.reset_u3 : State.reset.u3 = Dec64Unit.idle := rfl
@[simp] theorem State.reset_ports : State.reset.ports = Ports.quiet := rfl
@[simp] theorem State.reset_run : State.reset.run = [] := rfl
@[simp] theorem State.reset_turns : State.reset.turns = 0 := rfl
@[simp] theorem State.reset_wasReset : State.reset.wasReset = true := rfl
@[simp] theorem State.reset_params : State.reset.params = Config.Params.abstract := rfl

end Sys2Proof.Machine
end

