-- ==== Sys2Proof/Laws/Operands.lean ====
section
/-! SUPPORT. What the operands and lookups of Machine/Operands.lean say. -/

namespace Sys2Proof.Machine

/-- The table check is core's predicate of lists without repeats. -/
theorem distinct_iff_nodup (T : List Sym) : distinct T = true ↔ T.Nodup := by
  induction T with
  | nil => simp [distinct]
  | cons x xs ih => simp [distinct, ih, List.nodup_cons]

@[simp] theorem tableOperand16_dflt (p : Ports) : tableOperand16 true p = defaultB16 := rfl
@[simp] theorem tableOperand16_port (p : Ports) : tableOperand16 false p = p.tbl := rfl
@[simp] theorem tableOperand64_dflt (p : Ports) : tableOperand64 true p = defaultB64 := rfl
@[simp] theorem tableOperand64_port (p : Ports) : tableOperand64 false p = p.tbl := rfl

@[simp] theorem sextOf_data (v : Sext) : sextOf (.data v) = some v := rfl
@[simp] theorem sextOf_pad : sextOf .pad = none := rfl

/-- A lookup of a whole list succeeds exactly when every symbol has a value, and then gives them in order. -/
theorem lookupAll_eq_some {ν : Type} {look : Sym → Option ν} {ss : List Sym} {vs : List ν} :
    lookupAll look ss = some vs ↔ ss.map look = vs.map some := by
  induction ss generalizing vs with
  | nil => cases vs <;> simp [lookupAll]
  | cons s ss ih =>
    cases hs : look s with
    | none => cases vs <;> simp [lookupAll, hs]
    | some v =>
      cases hr : lookupAll look ss with
      | none =>
        cases vs with
        | nil => simp [lookupAll, hs, hr]
        | cons w ws =>
          have := (ih (vs := ws)).not.mp (by simp [hr])
          simp [lookupAll, hs, hr, this]
      | some us =>
        cases vs with
        | nil => simp [lookupAll, hs, hr]
        | cons w ws => simp [lookupAll, hs, hr, ← ih]

theorem lookupAll_length {ν : Type} {look : Sym → Option ν} {ss : List Sym} {vs : List ν}
    (h : lookupAll look ss = some vs) : vs.length = ss.length := by
  have := congrArg List.length (lookupAll_eq_some.mp h)
  simpa using this.symm

/-- A lookup of a whole list fails exactly when some symbol has no value. -/
theorem lookupAll_eq_none {ν : Type} {look : Sym → Option ν} {ss : List Sym} :
    lookupAll look ss = none ↔ ∃ s ∈ ss, look s = none := by
  induction ss with
  | nil => simp [lookupAll]
  | cons s ss ih =>
    cases hs : look s with
    | none => simp [lookupAll, hs]
    | some v =>
      cases hr : lookupAll look ss with
      | none => simp [lookupAll, hs, hr, ← ih]
      | some us => simp [lookupAll, hs, hr, ← ih]

/-- Two lookups that agree on every symbol give the same. -/
theorem lookupAll_congr {ν : Type} {f g : Sym → Option ν} (h : ∀ s, f s = g s) (ss : List Sym) :
    lookupAll f ss = lookupAll g ss := by
  have : f = g := funext h
  rw [this]

/-- The lookup in a list of (entry, value of its index) pairs is the value of the entry's first index. -/
theorem lookup_zipIdx_map {ν : Type} (f : Nat → ν) (T : List Sym) (s : Sym) (k : Nat) :
    List.lookup s ((T.zipIdx k).map fun e => (e.1, f e.2)) =
      (T.findIdx? fun t => t == s).map fun i => f (i + k) := by
  induction T generalizing k with
  | nil => rfl
  | cons t ts ih =>
    by_cases h : t = s
    · subst h
      simp [List.findIdx?_cons]
    · have h' : (s == t) = false := by simpa using fun e => h e.symm
      simp only [List.zipIdx_cons, List.map_cons, List.lookup_cons, h', ih, List.findIdx?_cons]
      simp [h, Option.map_map, Function.comp_def, Nat.add_assoc, Nat.add_comm 1 k]

/-- RLUT of U1 is the reverse lookup of the table it was built from. -/
theorem lookup_buildRlut16 (T : List Sym) (s : Sym) : (buildRlut16 T).lookup s = sym2nib T s := by
  simpa [buildRlut16, sym2nib, rlut] using lookup_zipIdx_map (BitVec.ofNat 4) T s 0

/-- RLUT of U3 is the reverse lookup of the table it was built from. -/
theorem lookup_buildRlut64 (T : List Sym) (s : Sym) : (buildRlut64 T).lookup s = sym2val T s := by
  simpa [buildRlut64, sym2val, rlut] using
    lookup_zipIdx_map (fun i => if i = 64 then SymVal.pad else .data (BitVec.ofNat 6 i)) T s 0

@[simp] theorem b16encByte_length (sym : Nib → Sym) (b : Byte) : (b16encByte sym b).length = 2 := rfl

/-- Every granule of one to three bytes yields exactly four symbols. -/
theorem b64encGroup_length (sym : Sext → Sym) (pad : Sym) {bs : List Byte} (h : bs.length ∈ [1, 2, 3]) :
    (b64encGroup sym pad bs).length = 4 := by
  match bs, h with
  | [_], _ => rfl
  | [_, _], _ => rfl
  | [_, _, _], _ => rfl

/-- A granule of `m` data sextets yields `m - 1` bytes. -/
theorem b64decGroup_length {vs : List Sext} (h : vs.length ∈ [2, 3, 4]) :
    (b64decGroup vs).length = vs.length - 1 := by
  match vs, h with
  | [_, _], _ => rfl
  | [_, _, _], _ => rfl
  | [_, _, _, _], _ => rfl

/-- R144: a granule holds two, three or four data symbols. -/
theorem dataSyms_range (g n : Nat) (p : Fin 3) : 2 ≤ dataSyms g n p ∧ dataSyms g n p ≤ 4 := by
  unfold dataSyms
  split <;> omega

end Sys2Proof.Machine
end

