-- ==== Sys2Proof/Laws/Bits.lean ====
section
/-! SUPPORT. The bit layouts of bytes, pairs and groups as numbers. -/

namespace Sys2Proof.Machine

/-- R79: the high nibble is the quotient by 16. -/
theorem hiNib_toNat (b : Byte) : (hiNib b).toNat = b.toNat / 16 := by revert b; decide

/-- R79: the low nibble is the remainder by 16. -/
theorem loNib_toNat (b : Byte) : (loNib b).toNat = b.toNat % 16 := by revert b; decide

/-- R52, R12: the OR of the three byte fields is their sum. -/
theorem packBytes_toNat (b0 b1 b2 : Byte) :
    (packBytes b0 b1 b2).toNat = b0.toNat * 2^16 + b1.toNat * 2^8 + b2.toNat := by
  have h0 := b0.isLt; have h1 := b1.isLt; have h2 := b2.isLt
  unfold packBytes
  simp only [BitVec.toNat_or, BitVec.toNat_shiftLeft, BitVec.toNat_setWidth]
  rw [Nat.mod_eq_of_lt (a := b0.toNat) (by omega), Nat.mod_eq_of_lt (a := b1.toNat) (by omega),
      Nat.mod_eq_of_lt (a := b2.toNat) (by omega)]
  simp only [Nat.shiftLeft_eq]
  rw [Nat.mod_eq_of_lt (by omega), Nat.mod_eq_of_lt (by omega)]
  have e1 : b0.toNat * 2^16 ||| b1.toNat * 2^8 = b0.toNat * 2^16 + b1.toNat * 2^8 := by
    rw [Nat.mul_comm b0.toNat]; exact (Nat.two_pow_add_eq_or_of_lt (i := 16) (by omega) _).symm
  rw [e1]
  have e2 : b0.toNat * 2^16 + b1.toNat * 2^8 = 2^8 * (b0.toNat * 2^8 + b1.toNat) := by ring
  rw [e2]; exact (Nat.two_pow_add_eq_or_of_lt (i := 8) (by omega) _).symm

/-- R80, R12: the OR of the four sextet fields is their sum. -/
theorem packSexts_toNat (v0 v1 v2 v3 : Sext) :
    (packSexts v0 v1 v2 v3).toNat = v0.toNat * 2^18 + v1.toNat * 2^12 + v2.toNat * 2^6 + v3.toNat := by
  have h0 := v0.isLt; have h1 := v1.isLt; have h2 := v2.isLt; have h3 := v3.isLt
  unfold packSexts
  simp only [BitVec.toNat_or, BitVec.toNat_shiftLeft, BitVec.toNat_setWidth]
  rw [Nat.mod_eq_of_lt (a := v0.toNat) (by omega), Nat.mod_eq_of_lt (a := v1.toNat) (by omega),
      Nat.mod_eq_of_lt (a := v2.toNat) (by omega), Nat.mod_eq_of_lt (a := v3.toNat) (by omega)]
  simp only [Nat.shiftLeft_eq]
  rw [Nat.mod_eq_of_lt (by omega), Nat.mod_eq_of_lt (by omega), Nat.mod_eq_of_lt (by omega)]
  have e1 : v0.toNat * 2^18 ||| v1.toNat * 2^12 = v0.toNat * 2^18 + v1.toNat * 2^12 := by
    rw [Nat.mul_comm v0.toNat]; exact (Nat.two_pow_add_eq_or_of_lt (i := 18) (by omega) _).symm
  rw [e1]
  have e2 : v0.toNat * 2^18 + v1.toNat * 2^12 = 2^12 * (v0.toNat * 2^6 + v1.toNat) := by ring
  have e3 : 2^12 * (v0.toNat * 2^6 + v1.toNat) ||| v2.toNat * 2^6 =
      2^12 * (v0.toNat * 2^6 + v1.toNat) + v2.toNat * 2^6 :=
      (Nat.two_pow_add_eq_or_of_lt (i := 12) (by omega) _).symm
  rw [e2, e3]
  have e4 : 2^12 * (v0.toNat * 2^6 + v1.toNat) + v2.toNat * 2^6 =
      2^6 * (v0.toNat * 2^12 + v1.toNat * 2^6 + v2.toNat) := by ring
  rw [e4]; exact (Nat.two_pow_add_eq_or_of_lt (i := 6) (by omega) _).symm

/-- R7: a six-bit slice as a number. -/
theorem sextAt_toNat (w : Group24) (q) : (sextAt w q).toNat = w.toNat / 2^q % 64 := by
  simp [sextAt, Nat.shiftRight_eq_div_pow]
  rw [show (63:Nat) = 2^6-1 from rfl, Nat.and_two_pow_sub_one_eq_mod]; omega

/-- R7: an eight-bit slice as a number. -/
theorem byteAt_toNat (w : Group24) (q) : (byteAt w q).toNat = w.toNat / 2^q % 256 := by
  simp [byteAt, Nat.shiftRight_eq_div_pow]
  rw [show (255:Nat) = 2^8-1 from rfl, Nat.and_two_pow_sub_one_eq_mod]; omega

end Sys2Proof.Machine
end

