-- ==== Sys2Proof/Laws/Ops.lean ====
section
/-! SUPPORT. What the shared operations of Machine/Ops.lean can do, once each; proofs cite these and do not unfold
the operations. -/

namespace Sys2Proof.Machine

@[simp] theorem valid_some {γ : Type} (u : UnitId) (f : Field) (x : γ) : valid u f (some x) = .ok x := rfl
@[simp] theorem valid_none {γ : Type} (u : UnitId) (f : Field) : valid u f (none : Option γ) = .error (.invalidRead u f) := rfl

/-- A valid read gives the field's value, and nothing else does. -/
theorem valid_eq_ok {γ : Type} {u : UnitId} {f : Field} {o : Option γ} {x : γ} :
    valid u f o = .ok x ↔ o = some x := by
  cases o <;> simp [valid]

theorem memRead_ok {α : Type} {u : UnitId} {f : Field} {x : List α} {i k : Nat} (h : i + k ≤ x.length) :
    memRead u f x i k = .ok ((x.drop i).take k) := if_pos h

/-- A MemRead that answers gives `k` elements. -/
theorem memRead_length {α : Type} {u : UnitId} {f : Field} {x y : List α} {i k : Nat}
    (h : memRead u f x i k = .ok y) : y = (x.drop i).take k ∧ y.length = k := by
  unfold memRead at h
  split at h
  · cases h
    simp
    omega
  · cases h

theorem memWrite_ok {β : Type} {u : UnitId} {out s : List β} {i k : Nat} (h : i = out.length) (hk : s.length = k) :
    memWrite u out i k s = .ok (out ++ s) := if_pos ⟨h, hk⟩

/-- A MemWrite that answers has appended. -/
theorem memWrite_eq {β : Type} {u : UnitId} {out s y : List β} {i k : Nat} (h : memWrite u out i k s = .ok y) :
    y = out ++ s ∧ i = out.length ∧ s.length = k := by
  unfold memWrite at h
  split at h
  · cases h
    exact ⟨rfl, ‹_›⟩
  · cases h

theorem readPorts16_ok {u : UnitId} {T : List Sym} (h : T.length = 16) : readPorts16 u T = .ok (lut16 T h) := dif_pos h

theorem readPorts64_ok {u : UnitId} {T : List Sym} (h : T.length = 65) :
    readPorts64 u T = .ok (lut64 T h, padSym T h) := dif_pos h

@[simp] theorem UnitRec.finish_some {α β : Type} {u : UnitId} {r : UnitRec α β} {out : List β} (h : r.OUT = some out) :
    r.finish u = .ok (UnitRec.ended out .ok) := by
  simp [UnitRec.finish, h]

theorem DecUnit.finish_some {ν : Type} {u : UnitId} {r : DecUnit ν} {out : List Byte} (h : r.OUT = some out) :
    r.finish u = .ok { toUnitRec := UnitRec.ended out .ok, RLUT := none } := by
  simp [DecUnit.finish, UnitRec.finish_some h]

theorem Dec64Unit.finish_some {u : UnitId} {r : Dec64Unit} {out : List Byte} (h : r.OUT = some out) :
    r.finish u = .ok { toUnitRec := UnitRec.ended out .ok, RLUT := none, npad := none } := by
  simp [Dec64Unit.finish, DecUnit.finish_some h]

/-- The unit action with a granule left is the granule step. -/
theorem unitAction_step {ρ : Type} {u : UnitId} {p n : Nat} {granule : Nat → Except Fault ρ} {fin : Except Fault ρ}
    (h : p < n) : unitAction u (some p) (some n) granule fin = granule p := by
  simp [unitAction, h]

/-- The unit action with no granule left is FINISH. -/
theorem unitAction_finish {ρ : Type} {u : UnitId} {n : Nat} {granule : Nat → Except Fault ρ} {fin : Except Fault ρ} :
    unitAction u (some n) (some n) granule fin = fin := by
  simp [unitAction]

/-- START's gate: what it can do, its next states. -/
theorem startGate_next {s t taken : State} {ph : Phase} {bad : Option Refusal}
    (h : startGate s ph bad taken = .next t) :
    s.wasReset = true ∧ ((ph ≠ .idle ∧ t = s) ∨ (ph = .idle ∧ bad = none ∧ t = taken)) := by
  unfold startGate at h
  split at h
  · cases h
  · split at h
    · cases h
      simp_all
    · split at h
      · cases h
      · cases h
        simp_all

/-- START's gate never faults. -/
theorem startGate_no_fault (s taken : State) (ph : Phase) (bad : Option Refusal) (f : Fault) :
    startGate s ph bad taken ≠ .fault f := by
  unfold startGate
  split
  · simp
  · split
    · simp
    · split <;> simp

theorem startGate_taken {s taken : State} {ph : Phase} {bad : Option Refusal} (h : s.wasReset = true)
    (hp : ph = .idle) (hb : bad = none) : startGate s ph bad taken = .next taken := by
  simp [startGate, h, hp, hb]

theorem startGate_dropped {s taken : State} {ph : Phase} {bad : Option Refusal} (h : s.wasReset = true)
    (hp : ph ≠ .idle) : startGate s ph bad taken = .next s := by
  simp [startGate, h, hp]

@[simp] theorem placed_ok {ρ : Type} (put : ρ → State) (r : ρ) : placed put (.ok r) = .next (put r) := rfl
@[simp] theorem placed_error {ρ : Type} (put : ρ → State) (f : Fault) : placed put (.error f) = .fault f := rfl

theorem placed_eq_next {ρ : Type} {put : ρ → State} {x : Except Fault ρ} {t : State} (h : placed put x = .next t) :
    ∃ r, x = .ok r ∧ t = put r := by
  cases x with
  | error f => cases h
  | ok r => exact ⟨r, rfl, by cases h; rfl⟩

theorem placed_ne_refused {ρ : Type} (put : ρ → State) (x : Except Fault ρ) (r : Refusal) : placed put x ≠ .refused r := by
  cases x <;> simp [placed]

end Sys2Proof.Machine
end

