-- ==== Sys2Proof/Laws/Control.lean ====
section
/-! SUPPORT. What a command, a unit action, a host move and a step can do. -/

namespace Sys2Proof.Machine

open Sys2Proof.Safety

/-- A command that answers: dropped by a unit that is not IDLE, or taken by its unit. -/
theorem exec_next {i : Instr} {s t : State} (h : exec i s = .next t) :
    s.wasReset = true ∧ ((s.phase (unitOf i) ≠ .idle ∧ t = s) ∨ (s.phase (unitOf i) = .idle ∧
      match i with
      | .b16enc d => t = { s with u0 := startU0 (tableOperand16 d s.ports) s.ports.inB }
      | .b16dec d => t = { s with u1 := startU1 (tableOperand16 d s.ports) s.ports.inS }
      | .b64enc d => t = { s with u2 := startU2 (tableOperand64 d s.ports) s.ports.inB }
      | .b64dec d => t = { s with u3 := startU3 (tableOperand64 d s.ports) s.ports.inS })) := by
  cases i <;> (have := startGate_next h; simp [unitOf, State.phase]; tauto)

/-- A unit action that answers puts the new record into its unit. -/
theorem unitAct_next {u s t} (h : unitAct u s = .next t) : match u with
   | .u0 => ∃ r, actU0 s.u0 = .ok r ∧ t = { s with u0 := r }
   | .u1 => ∃ r, actU1 s.u1 = .ok r ∧ t = { s with u1 := r }
   | .u2 => ∃ r, actU2 s.u2 = .ok r ∧ t = { s with u2 := r }
   | .u3 => ∃ r, actU3 s.u3 = .ok r ∧ t = { s with u3 := r } := by
  cases u <;> exact placed_eq_next h

/-- No unit is chosen exactly when none is BUSY. -/
theorem freeUnit_none {s} : freeUnit s = none ↔ ∀ u, s.phase u ≠ .busy := by
  unfold freeUnit
  constructor
  · intro h u hu
    have : u ∈ busyUnits s := by simp [busyUnits, hu]; cases u <;> simp
    split at h <;> simp_all
  · intro h
    have : busyUnits s = [] := by simp [busyUnits, h]
    rw [this]

/-- The unit chosen is BUSY. -/
theorem freeUnit_some {s u} (h : freeUnit s = some u) : s.phase u = .busy := by
  have key : u ∈ busyUnits s := by
    unfold freeUnit at h
    split at h
    · cases h
    · rename_i e; cases h; simp [e]
    · rename_i a as _ e
      cases h
      rw [e]
      rw [List.getD_eq_getElem?_getD,
          List.getElem?_eq_getElem (by simp; exact Nat.lt_succ_iff.1 (Nat.mod_lt _ (Nat.succ_pos _)))]
      exact List.getElem_mem _
  simp [busyUnits] at key
  exact key.2

/-- Everything a step that answers can be. -/
theorem step_cases {s t : State} (h : step s = .next t) :
    (∃ p rest, s.run = .host p :: rest ∧
      let x := hostSignals { s with ports := p, run := rest }
      x.wasReset = true ∧
      ((p.cmdValid = true ∧ exec (decodeCmd p.cmd) x = .next t) ∨ (p.cmdValid = false ∧ t = x))) ∨
    (∃ u rest, s.run = .unit u :: rest ∧ s.wasReset = true ∧ unitAct u { s with run := rest } = .next t) ∨
    (s.run = [] ∧ s.wasReset = true ∧
      ((freeUnit s = none ∧ t = s) ∨
        ∃ u, freeUnit s = some u ∧ unitAct u { s with turns := s.turns + 1 } = .next t)) := by
  unfold step takeMove at h
  split at h
  · rename_i i x hx
    split at hx
    · rename_i p rest hrun
      left; refine ⟨p, rest, hrun, ?_⟩
      unfold hostMove at hx
      dsimp only at hx
      split_ifs at hx with a b
      cases hx
      have hp : (hostSignals { s with ports := p, run := rest }).ports = p := by
        unfold hostSignals; split_ifs <;> rfl
      rw [hp] at b h
      exact ⟨by simpa using a, .inl ⟨b, h⟩⟩
    · cases hx
    · cases hx
  · rename_i r hx
    split at hx
    · rename_i p rest hrun
      left; refine ⟨p, rest, hrun, ?_⟩
      unfold hostMove at hx
      dsimp only at hx
      have hp : (hostSignals { s with ports := p, run := rest }).ports = p := by
        unfold hostSignals; split_ifs <;> rfl
      split_ifs at hx with a b
      · cases hx; cases h
      · cases hx; cases h
        rw [hp] at b
        exact ⟨by simpa using a, .inr ⟨by simpa using b, rfl⟩⟩
    · rename_i u rest hrun
      right; left
      cases hx
      unfold unitMove at h
      split_ifs at h with a
      · exact ⟨u, rest, hrun, by simpa using a, h⟩
    · rename_i hrun
      right; right
      cases hx
      unfold idleMove drain at h
      split_ifs at h with a
      refine ⟨hrun, by simpa using a, ?_⟩
      split at h
      · cases h; exact .inl ⟨by assumption, rfl⟩
      · exact .inr ⟨_, by assumption, h⟩

theorem hostSignals_frame (s : State) :
    (hostSignals s).ports = s.ports ∧ (hostSignals s).run = s.run ∧ (hostSignals s).turns = s.turns ∧
    (hostSignals s).params = s.params ∧ (hostSignals s).wasReset = (s.ports.reset || s.wasReset) := by
  unfold hostSignals
  cases h : s.ports.reset <;> simp

@[simp] theorem hostSignals_ports (s : State) : (hostSignals s).ports = s.ports := (hostSignals_frame s).1

@[simp] theorem hostSignals_run (s : State) : (hostSignals s).run = s.run := (hostSignals_frame s).2.1

@[simp] theorem hostSignals_turns (s : State) : (hostSignals s).turns = s.turns := (hostSignals_frame s).2.2.1

@[simp] theorem hostSignals_params (s : State) : (hostSignals s).params = s.params := (hostSignals_frame s).2.2.2.1

@[simp] theorem hostSignals_wasReset (s : State) : (hostSignals s).wasReset = (s.ports.reset || s.wasReset) :=
    (hostSignals_frame s).2.2.2.2

/-- A step whose next move is the host's. -/
theorem step_host {s : State} {p : Ports} {rest : List Move} (hrun : s.run = .host p :: rest) :
    step s =
      if (p.reset || s.wasReset) = false then .refused .beforeReset
      else if p.cmdValid then exec (decodeCmd p.cmd) (hostSignals { s with ports := p, run := rest })
      else .next (hostSignals { s with ports := p, run := rest }) := by
  unfold step takeMove
  rw [hrun]
  simp only [hostMove, hostSignals_ports, hostSignals_wasReset]
  split_ifs <;> rfl

/-- R166 within a host move. -/
theorem hostSignals_reset {s : State} (h : s.ports.reset = true) : ∀ u, UnitReset u (hostSignals s) := by
  intro u
  cases u <;> simp [UnitReset, SameUnit, hostSignals, h, UnitRec.acked, DecUnit.acked, Dec64Unit.acked]

/-- R165 within a host move. -/
theorem hostSignals_ack {s : State} (h : s.ports.reset = false) :
    ∀ u, (s.ports.ack u = true ∧ s.phase u = .done → UnitReset u (hostSignals s)) ∧
   (¬ (s.ports.ack u = true ∧ s.phase u = .done) → SameUnit u s (hostSignals s)) := by
  intro u
  cases u <;> simp only [UnitReset, SameUnit, hostSignals, h, Ports.ack, State.phase, ackAll_u0, ackAll_u1,
      ackAll_u2, ackAll_u3, State.reset_u0, State.reset_u1, State.reset_u2, State.reset_u3, UnitRec.acked,
      DecUnit.acked, Dec64Unit.acked]
  all_goals
    constructor
    · rintro ⟨a, b⟩; simp [a, b]
    · intro a; simp only [Bool.false_eq_true, if_false]; split_ifs <;> first | rfl | simp_all

theorem sameUnit_refl (u s) : SameUnit u s s := by cases u <;> rfl

theorem sameUnit_trans {u s t r} (h : SameUnit u s t) (k : SameUnit u t r) : SameUnit u s r := by
  cases u <;> exact Eq.trans h k

theorem sameUnit_symm {u s t} (h : SameUnit u s t) : SameUnit u t s := by
  cases u <;> exact Eq.symm h

theorem sameUnit_phase {u s t} (h : SameUnit u s t) : s.phase u = t.phase u := by
  cases u <;> simp only [SameUnit] at h <;> simp [State.phase, h]

end Sys2Proof.Machine
end

