-- ==== Sys2Proof/Laws/Transactions.lean ====
section
/-! SUPPORT. The loops of the transaction functions on a list cut at a granule boundary. -/

namespace Sys2Proof.Machine

/-! ## Base16 -/

theorem b16encAll_append (sym : Nib → Sym) (x y : List Byte) :
    b16encAll sym (x ++ y) = b16encAll sym x ++ b16encAll sym y := by
  simp [b16encAll]

theorem b16encAll_length (sym : Nib → Sym) (x : List Byte) : (b16encAll sym x).length = 2 * x.length := by
  induction x with
  | nil => rfl
  | cons b bs ih =>
    simp only [b16encAll, List.flatMap_cons, List.length_append, b16encByte_length, List.length_cons] at ih ⊢
    omega

/-- One pair in front of a list of symbols. -/
theorem b16decAll_pair (look : Sym → Option Nib) (s0 s1 : Sym) (rest : List Sym) :
    b16decAll look (s0 :: s1 :: rest) =
      match lookupAll look [s0, s1] with
      | none => .error .unknownSymbol
      | some vs => (b16decAll look rest).map (b16decGranule vs ++ ·) := by
  rw [b16decAll]
  cases lookupAll look [s0, s1] with
  | none => rfl
  | some vs => cases b16decAll look rest <;> rfl

/-- Pairs decoded before the rest: their failure is the whole list's, their bytes come first. -/
theorem b16decAll_append (look : Sym → Option Nib) (x y : List Sym) (hx : x.length % 2 = 0) :
    b16decAll look (x ++ y) =
      match b16decAll look x with
      | .error r => .error r
      | .ok a => (b16decAll look y).map (a ++ ·) := by
  match x, hx with
  | [], _ =>
    simp only [List.nil_append, b16decAll]
    cases b16decAll look y <;> rfl
  | s0 :: s1 :: rest, hx =>
    have ih := b16decAll_append look rest y (by simp only [List.length_cons] at hx; omega)
    simp only [List.cons_append, b16decAll_pair, ih]
    cases lookupAll look [s0, s1] with
    | none => rfl
    | some vs =>
      cases b16decAll look rest with
      | error r => rfl
      | ok a => cases b16decAll look y <;> simp [Except.map]
termination_by x.length

theorem b16decAll_length {look : Sym → Option Nib} {x : List Sym} {out : List Byte}
    (h : b16decAll look x = .ok out) : out.length = x.length / 2 := by
  match x, h with
  | [], h => cases h; rfl
  | [_], h => cases h; simp
  | s0 :: s1 :: rest, h =>
    rw [b16decAll_pair] at h
    split at h
    · cases h
    · rename_i vs hvs
      cases hr : b16decAll look rest with
      | error r => simp [hr, Except.map] at h
      | ok a =>
        simp only [hr, Except.map, Except.ok.injEq] at h
        have ih := b16decAll_length hr
        have hl := lookupAll_length hvs
        match vs, hl with
        | [_, _], _ => subst h; simp [b16decGranule, ih]; omega
termination_by x.length

/-- The loop fails only with reason 6. -/
theorem b16decAll_error {look : Sym → Option Nib} {x : List Sym} {r : Reason}
    (h : b16decAll look x = .error r) : r = .unknownSymbol := by
  match x, h with
  | s0 :: s1 :: rest, h =>
    rw [b16decAll_pair] at h
    split at h
    · cases h; rfl
    · cases hr : b16decAll look rest with
      | error r' =>
        simp only [hr, Except.map, Except.error.injEq] at h
        exact h ▸ b16decAll_error hr
      | ok a => simp [hr, Except.map] at h
termination_by x.length

/-! ## Base64 -/

theorem b64encAll_append (sym : Sext → Sym) (pad : Sym) (x y : List Byte) (hx : x.length % 3 = 0) :
    b64encAll sym pad (x ++ y) = b64encAll sym pad x ++ b64encAll sym pad y := by
  match x, hx with
  | [], _ => simp [b64encAll]
  | b0 :: b1 :: b2 :: rest, hx =>
    have ih := b64encAll_append sym pad rest y (by simp only [List.length_cons] at hx; omega)
    simp [b64encAll, ih]
termination_by x.length

theorem b64encAll_length (sym : Sext → Sym) (pad : Sym) (x : List Byte) :
    (b64encAll sym pad x).length = 4 * ((x.length + 2) / 3) := by
  match x with
  | [] => rfl
  | [_] => simp [b64encAll, b64encGroup]
  | [_, _] => simp [b64encAll, b64encGroup]
  | b0 :: b1 :: b2 :: rest =>
    have ih := b64encAll_length sym pad rest
    simp only [b64encAll, List.length_append, ih, b64encGroup, List.length_cons, List.length_nil]
    omega
termination_by x.length

/-- The loop on at most three bytes is the group function. -/
theorem b64encAll_group (sym : Sext → Sym) (pad : Sym) {x : List Byte} (h : x.length ∈ [1, 2, 3]) :
    b64encAll sym pad x = b64encGroup sym pad x := by
  match x, h with
  | [_], _ => rfl
  | [_, _], _ => rfl
  | [_, _, _], _ => simp [b64encAll]

/-- One group in front of a list of symbols. -/
theorem b64decAll_group (look : Sym → Option Sext) (p : Fin 3) (s0 s1 s2 s3 : Sym) (rest : List Sym) :
    b64decAll look p (s0 :: s1 :: s2 :: s3 :: rest) =
      match lookupAll look ([s0, s1, s2, s3].take (if rest = [] then 4 - p.val else 4)) with
      | none => .error .unknownSymbol
      | some vs => (b64decAll look p rest).map (b64decGroup vs ++ ·) := by
  rw [b64decAll]
  cases lookupAll look ([s0, s1, s2, s3].take (if rest = [] then 4 - p.val else 4)) with
  | none => rfl
  | some vs => cases b64decAll look p rest <;> rfl

/-- Full groups decoded before a rest that is not empty: their failure is the whole list's, their bytes come first. -/
theorem b64decAll_append (look : Sym → Option Sext) (p : Fin 3) (x y : List Sym) (hx : x.length % 4 = 0) (hy : y ≠ []) :
    b64decAll look p (x ++ y) =
      match b64decAll look 0 x with
      | .error r => .error r
      | .ok a => (b64decAll look p y).map (a ++ ·) := by
  match x, hx with
  | [], _ =>
    simp only [List.nil_append, b64decAll]
    cases b64decAll look p y <;> rfl
  | s0 :: s1 :: s2 :: s3 :: rest, hx =>
    have ih := b64decAll_append look p rest y (by simp only [List.length_cons] at hx; omega) hy
    have h1 : ¬ (rest ++ y = []) := by simp [hy]
    have h2 : (if rest = [] then 4 - (0 : Fin 3).val else 4) = 4 := by split <;> rfl
    simp only [List.cons_append, b64decAll_group, ih, h1, if_false, h2]
    cases lookupAll look ([s0, s1, s2, s3].take 4) with
    | none => rfl
    | some vs =>
      cases b64decAll look 0 rest with
      | error r => rfl
      | ok a => cases b64decAll look p y <;> simp [Except.map]
termination_by x.length

/-- The loop fails only with reason 6. -/
theorem b64decAll_error {look : Sym → Option Sext} {p : Fin 3} {x : List Sym} {r : Reason}
    (h : b64decAll look p x = .error r) : r = .unknownSymbol := by
  match x, h with
  | s0 :: s1 :: s2 :: s3 :: rest, h =>
    rw [b64decAll_group] at h
    split at h
    · cases h; rfl
    · cases hr : b64decAll look p rest with
      | error r' =>
        simp only [hr, Except.map, Except.error.injEq] at h
        exact h ▸ b64decAll_error hr
      | ok a => simp [hr, Except.map] at h
termination_by x.length

/-- The loop gives `3k - p` bytes for `k` groups. -/
theorem b64decAll_length {look : Sym → Option Sext} {p : Fin 3} {x : List Sym} {out : List Byte}
    (h : b64decAll look p x = .ok out) (hx : x.length % 4 = 0) (hne : x ≠ []) :
    out.length + p.val = 3 * (x.length / 4) := by
  match x, h with
  | s0 :: s1 :: s2 :: s3 :: rest, h =>
    rw [b64decAll_group] at h
    split at h
    · cases h
    · rename_i vs hvs
      have hl := lookupAll_length hvs
      cases hr : b64decAll look p rest with
      | error r => simp [hr, Except.map] at h
      | ok a =>
        simp only [hr, Except.map, Except.ok.injEq] at h
        subst h
        have hp := p.isLt
        by_cases hrest : rest = []
        · subst hrest
          simp only [b64decAll, Except.ok.injEq] at hr
          subst hr
          simp only [if_true, List.length_take, List.length_cons, List.length_nil] at hl
          have : vs.length ∈ [2, 3, 4] := by simp; omega
          simp [b64decGroup_length this]
          omega
        · simp only [hrest, if_false, List.length_take, List.length_cons, List.length_nil] at hl
          have : vs.length ∈ [2, 3, 4] := by simp; omega
          have ih := b64decAll_length hr (by simp only [List.length_cons] at hx; omega) hrest
          simp only [List.length_append, b64decGroup_length this, List.length_cons]
          omega
  | [_], _ => simp at hx
  | [_, _], _ => simp at hx
  | [_, _, _], _ => simp at hx
termination_by x.length

end Sys2Proof.Machine
end

