-- ==== Sys2Proof/Laws/Outcomes.lean ====
section
/-! SUPPORT. The outcomes of the four transaction functions, one case for each check. -/

namespace Sys2Proof.Machine

/-- Every outcome of R100, with what leads to it. -/
theorem b16enc_cases (bytes : List Byte) (T : List Sym) :
    (bytes = [] ∧ b16enc bytes T = .error .emptyInput) ∨
    (bytes ≠ [] ∧ T.length ≠ 16 ∧ b16enc bytes T = .error .tableLength) ∨
    (bytes ≠ [] ∧ T.length = 16 ∧ distinct T = false ∧ b16enc bytes T = .error .tableDuplicate) ∨
    (bytes ≠ [] ∧ distinct T = true ∧ ∃ h : T.length = 16, b16enc bytes T = .ok (b16encAll (lut16 T h) bytes)) := by
  unfold b16enc
  by_cases h1 : bytes = []
  · simp [h1]
  · by_cases h2 : T.length = 16
    · by_cases h3 : distinct T = true
      · simp [h1,h2,h3]
      · simp [h1,h2,h3]
    · simp [h1,h2]

/-- Every outcome of R126, with what leads to it. -/
theorem b64enc_cases (bytes : List Byte) (T : List Sym) :
    (bytes = [] ∧ b64enc bytes T = .error .emptyInput) ∨
    (bytes ≠ [] ∧ T.length ≠ 65 ∧ b64enc bytes T = .error .tableLength) ∨
    (bytes ≠ [] ∧ T.length = 65 ∧ distinct T = false ∧ b64enc bytes T = .error .tableDuplicate) ∨
    (bytes ≠ [] ∧ distinct T = true ∧
      ∃ h : T.length = 65, b64enc bytes T = .ok (b64encAll (lut64 T h) (padSym T h) bytes)) := by
  unfold b64enc
  by_cases h1 : bytes = []
  · simp [h1]
  · by_cases h2 : T.length = 65
    · by_cases h3 : distinct T = true
      · simp [h1,h2,h3]
      · simp [h1,h2,h3]
    · simp [h1,h2]

/-- Every outcome of R111, with what leads to it. -/
theorem b16dec_cases (syms T : List Sym) :
    (syms = [] ∧ b16dec syms T = .error .emptyInput) ∨
    (syms ≠ [] ∧ T.length ≠ 16 ∧ b16dec syms T = .error .tableLength) ∨
    (syms ≠ [] ∧ T.length = 16 ∧ distinct T = false ∧ b16dec syms T = .error .tableDuplicate) ∨
    (syms ≠ [] ∧ T.length = 16 ∧ distinct T = true ∧ syms.length % 2 ≠ 0 ∧ b16dec syms T = .error .inputLength) ∨
    (syms ≠ [] ∧ T.length = 16 ∧ distinct T = true ∧ syms.length % 2 = 0 ∧
      b16dec syms T = b16decAll (sym2nib T) syms) := by
  unfold b16dec
  by_cases h1 : syms = []
  · simp [h1]
  by_cases h2 : T.length = 16
  · cases h3 : distinct T with
    | false => simp [h1,h2]
    | true =>
      by_cases h4 : syms.length % 2 = 0
      · simp [h1,h2,h3,h4]
      · simp [h1,h2,h3,h4]
  · simp [h1,h2]

/-- Every outcome of R141, with what leads to it. -/
theorem b64dec_cases (syms T : List Sym) :
    (syms = [] ∧ b64dec syms T = .error .emptyInput) ∨
    (syms ≠ [] ∧ T.length ≠ 65 ∧ b64dec syms T = .error .tableLength) ∨
    (syms ≠ [] ∧ T.length = 65 ∧ distinct T = false ∧ b64dec syms T = .error .tableDuplicate) ∨
    (syms ≠ [] ∧ T.length = 65 ∧ distinct T = true ∧ syms.length % 4 ≠ 0 ∧ b64dec syms T = .error .inputLength) ∨
    (syms ≠ [] ∧ T.length = 65 ∧ distinct T = true ∧ syms.length % 4 = 0 ∧ misplacedPadding T syms = true ∧
      b64dec syms T = .error .padding) ∨
    (syms ≠ [] ∧ T.length = 65 ∧ distinct T = true ∧ syms.length % 4 = 0 ∧ misplacedPadding T syms = false ∧
      b64dec syms T = b64decAll (sym2sext T) (padCount T syms) syms) := by
  unfold b64dec
  by_cases h1 : syms = []
  · simp [h1]
  by_cases h2 : T.length = 65
  · cases h3 : distinct T with
    | false => simp [h1,h2]
    | true =>
      by_cases h4 : syms.length % 4 = 0
      · cases h5 : misplacedPadding T syms <;> simp [h1,h2,h3,h4,h5]
      · simp [h1,h2,h3,h4]
  · simp [h1,h2]

theorem b16enc_ok {T : List Sym} {inp : List Byte} (h : T.length = 16) (hd : distinct T = true) (hi : inp ≠ []) :
    b16enc inp T = .ok (b16encAll (lut16 T h) inp) := by simp [b16enc, hi, h, hd]

theorem b64enc_ok {T : List Sym} {inp : List Byte} (h : T.length = 65) (hd : distinct T = true) (hi : inp ≠ []) :
    b64enc inp T = .ok (b64encAll (lut64 T h) (padSym T h) inp) := by simp [b64enc, hi, h, hd]

theorem b16dec_run {T inp : List Sym} (h : T.length = 16) (hd : distinct T = true) (hi : inp ≠ []) (hm :
    inp.length % 2 = 0) :
    b16dec inp T = b16decAll (sym2nib T) inp := by simp [b16dec, hi, h, hd, hm]

theorem b64dec_run {T inp : List Sym} (h : T.length = 65) (hd : distinct T = true) (hi : inp ≠ []) (hm :
    inp.length % 4 = 0)
   (hp : misplacedPadding T inp = false) :
    b64dec inp T = b64decAll (sym2sext T) (padCount T inp) inp := by simp [b64dec, hi, h, hd, hm, hp]

theorem b16enc_ok_inv {bytes T out} (h : b16enc bytes T = .ok out) : bytes ≠ [] ∧ distinct T = true ∧ ∃ h :
    T.length = 16, out = b16encAll (lut16 T h) bytes := by
  rcases b16enc_cases bytes T with ⟨_, e⟩ | ⟨_, _, e⟩ | ⟨_, _, _, e⟩ | ⟨a, b, c, e⟩ <;> rw [e] at h <;> cases h
  exact ⟨a, b, c, rfl⟩

theorem b64enc_ok_inv {bytes T out} (h : b64enc bytes T = .ok out) : bytes ≠ [] ∧ distinct T = true ∧ ∃ h :
    T.length = 65, out = b64encAll (lut64 T h) (padSym T h) bytes := by
  rcases b64enc_cases bytes T with ⟨_, e⟩ | ⟨_, _, e⟩ | ⟨_, _, _, e⟩ | ⟨a, b, c, e⟩ <;> rw [e] at h <;> cases h
  exact ⟨a, b, c, rfl⟩

theorem b16dec_ok_inv {syms T out} (h : b16dec syms T = .ok out) :
    syms ≠ [] ∧ T.length = 16 ∧ distinct T = true ∧ syms.length % 2 = 0 ∧ b16decAll (sym2nib T) syms = .ok out := by
  unfold b16dec at h
  split_ifs at h <;> simp_all

theorem b64dec_ok_inv {syms T out} (h : b64dec syms T = .ok out) :
    syms ≠ [] ∧ T.length = 65 ∧ distinct T = true ∧ syms.length % 4 = 0 ∧ misplacedPadding T syms = false ∧
    b64decAll (sym2sext T) (padCount T syms) syms = .ok out := by
  unfold b64dec at h
  split_ifs at h <;> simp_all

end Sys2Proof.Machine
end

