-- ==== Sys2Proof/Laws/PerInstr.lean ====
section
/-! SUPPORT. Statements made of every instruction, one lemma per constructor. -/

namespace Sys2Proof.Laws.WordFields

/-- R70, R71: the word of the instruction is well formed and carries its fields: bit 2 is `dflt`, bit 1 the codec,
bit 0 the direction. -/
def Statement (i : Instr) : Prop :=
  i.wellFormed = true ∧
  match i with
  | .b16enc d => cmdDflt (encode i) = d ∧ cmdCodec (encode i) = false ∧ cmdDir (encode i) = false
  | .b16dec d => cmdDflt (encode i) = d ∧ cmdCodec (encode i) = false ∧ cmdDir (encode i) = true
  | .b64enc d => cmdDflt (encode i) = d ∧ cmdCodec (encode i) = true ∧ cmdDir (encode i) = false
  | .b64dec d => cmdDflt (encode i) = d ∧ cmdCodec (encode i) = true ∧ cmdDir (encode i) = true

theorem b16enc (dflt : Bool) : Statement (.b16enc dflt) := by cases dflt <;> exact ⟨rfl, rfl, rfl, rfl⟩

theorem b16dec (dflt : Bool) : Statement (.b16dec dflt) := by cases dflt <;> exact ⟨rfl, rfl, rfl, rfl⟩

theorem b64enc (dflt : Bool) : Statement (.b64enc dflt) := by cases dflt <;> exact ⟨rfl, rfl, rfl, rfl⟩

theorem b64dec (dflt : Bool) : Statement (.b64dec dflt) := by cases dflt <;> exact ⟨rfl, rfl, rfl, rfl⟩

end Sys2Proof.Laws.WordFields
end

