-- ==== Sys2Proof/Laws/Tables.lean ====
section
/-! SUPPORT. The tables: validity, forward and reverse lookup, the positions of the padding symbol. -/

namespace Sys2Proof.Machine

open Sys2Proof.Safety

theorem nodup_iff_pairs (T : List Sym) (L : Nat) (h : T.length = L) :
    T.Nodup ↔ ∀ i j : Nat, i < j → j < L → T[i]? ≠ T[j]? := by
  subst h
  rw [List.nodup_iff_getElem?_ne_getElem?]

/-- R74: the two validity predicates are the check on length and distinctness. -/
theorem validTable_iff (L : Nat) (T : List Sym) : ValidTable L T ↔ T.length = L ∧ distinct T = true := by
  unfold ValidTable
  constructor
  · rintro ⟨h, h2⟩; exact ⟨h, (distinct_iff_nodup T).2 ((nodup_iff_pairs T L h).2 h2)⟩
  · rintro ⟨h, h2⟩; exact ⟨h, (nodup_iff_pairs T L h).1 ((distinct_iff_nodup T).1 h2)⟩

/-- R26: a forward lookup reads the entry. -/
theorem lut16_spec (T : List Sym) (h : T.length = 16) (v : Nib) : T[v.toNat]? = some (lut16 T h v) := by
  simp [lut16]

theorem lut64_spec (T : List Sym) (h : T.length = 65) (v : Sext) : T[v.toNat]? = some (lut64 T h v) := by
  simp [lut64]

theorem pad_spec (T : List Sym) (h : T.length = 65) : T[64]? = some (padSym T h) := by
  simp [padSym]

/-- A reverse lookup answers inside the table. -/
theorem rlut_lt {T x i} (h : rlut T x = some i) : i < T.length := by
  unfold rlut at h; rw [List.findIdx?_eq_some_iff_getElem] at h; exact h.1

/-- R141: the padding set holds exactly the positions of the padding symbol. -/
theorem mem_padPositions {pad : Sym} {inp : List Sym} {i : Nat} :
    i ∈ padPositions pad inp ↔ inp[i]? = some pad := by
  simp [padPositions, List.mem_zipIdx_iff_getElem?]

/-- The padding set is listed in increasing order. -/
theorem padPositions_sorted (pad : Sym) (inp : List Sym) : (padPositions pad inp).Pairwise (· < ·) := by
  unfold padPositions
  rw [List.pairwise_map]
  apply List.Pairwise.filter
  have : (inp.zipIdx).Pairwise (fun a b => a.2 < b.2) := by
    rw [List.pairwise_iff_getElem]
    intro i j hi hj hij
    simp; exact hij
  exact this

theorem lookupAll_mem {ν} {look : Sym → Option ν} {ss vs} (h : lookupAll look ss = some vs) :
    ∀ x ∈ ss, ∃ v, look x = some v := by
  intro x hx
  cases hl : look x with
  | some v => exact ⟨v, rfl⟩
  | none => rw [lookupAll_eq_none.2 ⟨x, hx, hl⟩] at h; cases h

end Sys2Proof.Machine
end

