-- ==== Sys2Proof/Laws/Start.lean ====
section
/-! SUPPORT. What START checks, and when each check passes. -/

namespace Sys2Proof.Machine

open Sys2Proof.Safety

/-- R161: START passes exactly when no condition holds. -/
theorem startReason_eq_none {L gran n T m} :
    startReason L gran n T m = none ↔ n ≠ 0 ∧ T.length = L ∧ distinct T = true ∧ n % gran = 0 ∧ m = false := by
  unfold startReason
  constructor
  · intro h; split at h <;> try contradiction
    split at h <;> try contradiction
    split at h <;> try contradiction
    split at h <;> try contradiction
    split at h <;> try contradiction
    simp_all
  · rintro ⟨a,b,c,d,e⟩; simp [a,b,c,d,e]

/-- Condition 3 of R161 for a table of the right length. -/
theorem cond3_iff (L : Nat) (T : List Sym) (h : T.length = L) :
    (∃ i j : Nat, i < j ∧ j < L ∧ T[i]? = T[j]?) ↔ distinct T = false := by
  have := (validTable_iff L T)
  unfold ValidTable at this
  constructor
  · rintro ⟨i,j,hij,hj,e⟩
    by_contra hd
    have hd : distinct T = true := by simpa using hd
    exact (this.2 ⟨h,hd⟩).2 i j hij hj e
  · intro hd
    by_contra hn
    push Not at hn
    have := (this.1 ⟨h, hn⟩).2
    simp [hd] at this

/-- R6, R212: the table port carries the table exactly when it is within TMAX and SYM_W. -/
theorem tableRefusal_none (pr d tbl) :
    tableRefusal pr d tbl = none ↔ (d = false → (∀ t, pr.tmax = some t → tbl.length ≤ t) ∧
    (∀ w, pr.symW = some w → ∀ x ∈ tbl, x < 2 ^ w)) := by
  unfold tableRefusal
  cases d
  · cases h1 : pr.tmax <;> cases h2 : pr.symW <;> simp [lenFits, symFits, h2]
    split_ifs with a b <;> simp_all
  · simp

theorem encodeRefusal_none (d) (s : State) : encodeRefusal s.params d s.ports = none ↔ EncodeOperandsFit d s := by
  unfold encodeRefusal EncodeOperandsFit
  rw [Option.or_eq_none_iff, tableRefusal_none]
  refine and_congr Iff.rfl ?_
  unfold bytesRefusal
  cases h1 : s.params.maxLen <;> simp [lenFits]

theorem decodeRefusal_none (d) (s : State) : decodeRefusal s.params d s.ports = none ↔ DecodeOperandsFit d s := by
  unfold decodeRefusal DecodeOperandsFit
  rw [Option.or_eq_none_iff, tableRefusal_none]
  refine and_congr Iff.rfl ?_
  unfold symsRefusal
  cases h1 : s.params.maxLen <;> cases h2 : s.params.symW <;> simp [lenFits, symFits, h2]
  split_ifs with a b <;> simp_all

end Sys2Proof.Machine
end

