-- ==== Sys2Proof/Laws/Units.lean ====
section
/-! SUPPORT. What the unit actions do to a record that serves a transaction. -/

namespace Sys2Proof.Machine

open Sys2Proof.Safety

theorem take_succ_drop {α} (l : List α) (i k : Nat) : l.take i ++ (l.drop i).take k = l.take (i+k) := by
  rw [List.take_add]

theorem granuleU0_busy {T inp out g n} (h : T.length = 16) (hg : g < inp.length) (ho : out.length = 2*g) :
    granuleU0 (busyRec T inp g n out) g =
        .ok (busyRec T inp (g+1) n (out ++ b16encAll (lut16 T h) ((inp.drop g).take 1))) := by
  have h1 : g + 1 ≤ inp.length := hg
  have hl : (b16encAll (lut16 T h) ((inp.drop g).take 1)).length = 2 := by
    rw [b16encAll_length]; simp; omega
  simp [granuleU0, busyRec, memRead_ok h1, readPorts16_ok h, memWrite_ok ho.symm hl, bind, Except.bind,
      UnitRec.advanced]

/-- R102 on a BUSY U0: the granule step appends the two symbols of one byte. -/
theorem actU0_busy_lt {T inp out g n} (h : T.length = 16) (hg : g < inp.length) (hn : g < n)
    (ho : out.length = 2*g) :
    actU0 (busyRec T inp g n out) =
        .ok (busyRec T inp (g+1) n (out ++ b16encAll (lut16 T h) ((inp.drop g).take 1))) := by
  rw [← granuleU0_busy h hg ho]
  simp [actU0, busyRec, unitAction_step hn]

/-- R164 on U0. -/
theorem actU0_busy_eq {T inp out n} :
    actU0 (busyRec T inp n n out) = .ok (UnitRec.ended out .ok) := by
  simp [actU0, busyRec, unitAction_finish, UnitRec.finish]

/-- R114 on a BUSY U1: the granule step appends one byte, or takes the failure. -/
theorem actU1_busy_lt {T inp out g n} {rl : List (Sym × Nib)} (hg : 2*g+2 ≤ inp.length) (hn : g < n)
    (ho : out.length = g) :
    actU1 { toUnitRec := busyRec T inp g n out, RLUT := some rl } =
     match lookupAll (fun s => rl.lookup s) ((inp.drop (2*g)).take 2) with
     | none => .ok (DecUnit.failed .unknownSymbol)
     | some vs => .ok { toUnitRec := busyRec T inp (g+1) n (out ++ b16decGranule vs), RLUT := some rl } := by
  have e : actU1 { toUnitRec := busyRec T inp g n out, RLUT := some rl } =
      granuleU1 { toUnitRec := busyRec T inp g n out, RLUT := some rl } g := by
    simp [actU1, busyRec, unitAction_step hn]
  rw [e]
  simp only [granuleU1, busyRec, valid_some, memRead_ok hg, bind, Except.bind]
  cases hl : lookupAll (fun s => rl.lookup s) ((inp.drop (2*g)).take 2) with
  | none => rfl
  | some vs =>
    have h2 : vs.length = 2 := by rw [lookupAll_length hl]; simp; omega
    have h3 : (b16decGranule vs).length = 1 := by
      match vs, h2 with
      | [_, _], _ => rfl
    simp [memWrite_ok ho.symm h3, UnitRec.advanced]

/-- R164 on U1. -/
theorem actU1_busy_eq {T inp out n rl} :
    actU1 { toUnitRec := busyRec T inp n n out, RLUT := rl } =
        .ok { toUnitRec := UnitRec.ended out .ok, RLUT := none } := by
  simp [actU1, busyRec, unitAction_finish, DecUnit.finish, UnitRec.finish]

/-- R130 on a BUSY U2: the granule step appends the four symbols of the next bytes. -/
theorem actU2_busy_lt {T inp out g n} (h : T.length = 65) (hg : 3*g < inp.length) (hn : g < n)
    (ho : out.length = 4*g) :
    actU2 (busyRec T inp g n out) =
        .ok (busyRec T inp (g+1) n (out ++ b64encAll (lut64 T h) (padSym T h) ((inp.drop (3*g)).take 3))) := by
  have e : actU2 (busyRec T inp g n out) = granuleU2 (busyRec T inp g n out) g := by
    simp [actU2, busyRec, unitAction_step hn]
  have h1 : 3*g + min 3 (inp.length - 3*g) ≤ inp.length := by omega
  have hk : (inp.drop (3*g)).take (min 3 (inp.length - 3*g)) = (inp.drop (3*g)).take 3 := by
    rw [List.take_eq_take_iff]; simp
  have hm : ((inp.drop (3*g)).take 3).length ∈ [1,2,3] := by simp; omega
  rw [e, b64encAll_group _ _ hm]
  have hl := b64encGroup_length (lut64 T h) (padSym T h) hm
  simp [granuleU2, busyRec, memRead_ok h1, hk, readPorts64_ok h, memWrite_ok ho.symm hl, bind, Except.bind,
      UnitRec.advanced]

/-- R164 on U2. -/
theorem actU2_busy_eq {T inp out n} :
    actU2 (busyRec T inp n n out) = .ok (UnitRec.ended out .ok) := by
  simp [actU2, busyRec, unitAction_finish, UnitRec.finish]

/-- R146 on a BUSY U3: the granule step appends the bytes of the data symbols, or takes the failure. -/
theorem actU3_busy_lt {T inp out g n p} {rl : List (Sym × SymVal)} (hg : 4*g+4 ≤ inp.length) (hn : g < n) :
    actU3 { toUnitRec := busyRec T inp g n out, RLUT := some rl, npad := some p } =
     match lookupAll (fun s => (rl.lookup s).bind sextOf) ((inp.drop (4*g)).take (dataSyms g n p)) with
     | none => .ok (Dec64Unit.failed .unknownSymbol)
     | some vs => .ok { toUnitRec := busyRec T inp (g+1) n (out ++ b64decGroup vs), RLUT := some rl, npad := some p } := by
  have e : actU3 { toUnitRec := busyRec T inp g n out, RLUT := some rl, npad := some p } =
      granuleU3 { toUnitRec := busyRec T inp g n out, RLUT := some rl, npad := some p } g := by
    simp [actU3, busyRec, unitAction_step hn]
  have hd := dataSyms_range g n p
  have hr : 4*g + dataSyms g n p ≤ inp.length := by omega
  rw [e]
  simp only [granuleU3, busyRec, valid_some, memRead_ok hr, bind, Except.bind]
  cases hl : lookupAll (fun s => (rl.lookup s).bind sextOf) ((inp.drop (4*g)).take (dataSyms g n p)) with
  | none => rfl
  | some vs =>
    have h2 : vs.length = dataSyms g n p := by rw [lookupAll_length hl]; simp; omega
    have h4 : vs.length ∈ [2,3,4] := by simp; omega
    have h3 : (b64decGroup vs).length = dataSyms g n p - 1 := by
      rw [b64decGroup_length h4, h2]
    simp [memWrite_ok rfl h3, UnitRec.advanced]

/-- R164 on U3. -/
theorem actU3_busy_eq {T inp out n rl p} :
    actU3 { toUnitRec := busyRec T inp n n out, RLUT := rl, npad := p } =
        .ok { toUnitRec := UnitRec.ended out .ok, RLUT := none, npad := none } := by
  simp [actU3, busyRec, unitAction_finish, Dec64Unit.finish, DecUnit.finish, UnitRec.finish]

/-- R27: RLUT as a function is the reverse lookup. -/
theorem lookfun16 (T : List Sym) : (fun s => (buildRlut16 T).lookup s) = sym2nib T := funext (lookup_buildRlut16 T)

theorem lookfun64 (T : List Sym) : (fun s => ((buildRlut64 T).lookup s).bind sextOf) = sym2sext T := by
  funext s; rw [lookup_buildRlut64]; rfl

/-- An action of a BUSY U0 goes on serving the transaction, and leaves one action less or ends it. -/
theorem actU0_serves {T inp r} (hb : BusyU0 T inp r) : ∃ r', actU0 r = .ok r' ∧ ServesU0 T inp r' ∧
    ((r'.phase = .busy ∧ recWork r' + 1 = recWork r) ∨
        (r'.phase = .done ∧ recWork r' = 0 ∧ (recWork r = 1 ∨ r'.reason = some .unknownSymbol))) := by
  obtain ⟨h, pos, hd, hi, hp, rfl⟩ := hb
  have hol : (b16encAll (lut16 T h) (inp.take pos)).length = 2 * pos := by
    rw [b16encAll_length]; simp; omega
  by_cases hlt : pos < inp.length
  · refine ⟨_, actU0_busy_lt h hlt hlt hol, .inl ⟨h, pos+1, hd, hi, hlt, ?_⟩, .inl ⟨rfl, ?_⟩⟩
    · rw [← b16encAll_append, take_succ_drop]
    · simp [recWork, busyRec]; omega
  · obtain rfl : pos = inp.length := by omega
    refine ⟨_, actU0_busy_eq, .inr ?_, .inr ⟨rfl, rfl, .inl ?_⟩⟩
    · simp [b16enc_ok h hd hi, settled]
    · simp [recWork, busyRec]

/-- An action of a BUSY U1 goes on serving the transaction, and leaves one action less or ends it. -/
theorem actU1_serves {T inp r} (hb : BusyU1 T inp r) : ∃ r', actU1 r = .ok r' ∧ ServesU1 T inp r' ∧
    ((r'.phase = .busy ∧ recWork r'.toUnitRec + 1 = recWork r.toUnitRec) ∨
        (r'.phase = .done ∧ recWork r'.toUnitRec = 0 ∧
        (recWork r.toUnitRec = 1 ∨ r'.reason = some .unknownSymbol))) := by
  obtain ⟨pos, out, h, hd, hi, hm, hp, ho, rfl⟩ := hb
  have hol : out.length = pos := by
    rw [b16decAll_length ho]; simp; omega
  have hrun := b16dec_run h hd hi hm
  by_cases hlt : pos < inp.length / 2
  · have hg : 2*pos + 2 ≤ inp.length := by omega
    rw [actU1_busy_lt hg hlt hol, lookfun16]
    have hpair : ∃ s0 s1, (inp.drop (2*pos)).take 2 = [s0, s1] := by
      have : ((inp.drop (2*pos)).take 2).length = 2 := by simp; omega
      match (inp.drop (2*pos)).take 2, this with
      | [a, b], _ => exact ⟨a, b, rfl⟩
    obtain ⟨s0, s1, hs⟩ := hpair
    have h2 : inp.take (2*(pos+1)) = inp.take (2*pos) ++ [s0, s1] := by
      rw [← hs, take_succ_drop]; rfl
    have hdec : b16decAll (sym2nib T) (inp.take (2*(pos+1))) =
        match lookupAll (sym2nib T) [s0,s1] with
        | none => .error .unknownSymbol
        | some vs => .ok (out ++ b16decGranule vs) := by
      rw [h2, b16decAll_append _ _ _ (by simp; omega), ho]
      simp only [b16decAll_pair]
      cases lookupAll (sym2nib T) [s0,s1] <;> simp [Except.map, b16decAll]
    rw [hs]
    cases hl : lookupAll (sym2nib T) [s0,s1] with
    | none =>
      refine ⟨_, rfl, .inr ?_, .inr ⟨rfl, rfl, .inr rfl⟩⟩
      simp only [hl] at hdec
      have : b16decAll (sym2nib T) inp = .error .unknownSymbol := by
        have e : inp = inp.take (2*(pos+1)) ++ inp.drop (2*(pos+1)) := by simp
        rw [e, b16decAll_append _ _ _ (by simp; omega), hdec]
      rw [hrun, this]; rfl
    | some vs =>
      simp only [hl] at hdec
      exact ⟨_, rfl, .inl ⟨pos+1, _, h, hd, hi, hm, hlt, hdec, rfl⟩, .inl ⟨rfl, by simp [recWork, busyRec]; omega⟩⟩
  · obtain rfl : pos = inp.length / 2 := by omega
    refine ⟨_, actU1_busy_eq, .inr ?_, .inr ⟨rfl, rfl, .inl ?_⟩⟩
    · have : inp.take (2 * (inp.length/2)) = inp := List.take_of_length_le (by omega)
      rw [this] at ho
      simp [hrun, ho, settledDec, settled]
    · simp [recWork, busyRec]

/-- An action of a BUSY U2 goes on serving the transaction, and leaves one action less or ends it. -/
theorem actU2_serves {T inp r} (hb : BusyU2 T inp r) : ∃ r', actU2 r = .ok r' ∧ ServesU2 T inp r' ∧
    ((r'.phase = .busy ∧ recWork r' + 1 = recWork r) ∨
        (r'.phase = .done ∧ recWork r' = 0 ∧ (recWork r = 1 ∨ r'.reason = some .unknownSymbol))) := by
  obtain ⟨h, pos, hd, hi, hp, rfl⟩ := hb
  by_cases hlt : pos < (inp.length+2)/3
  · have hol : (b64encAll (lut64 T h) (padSym T h) (inp.take (3*pos))).length = 4 * pos := by
      rw [b64encAll_length]; simp; omega
    refine ⟨_, actU2_busy_lt h (by omega) hlt hol, .inl ⟨h, pos+1, hd, hi, hlt, ?_⟩, .inl ⟨rfl, ?_⟩⟩
    · rw [← b64encAll_append _ _ _ _ (by simp; omega), take_succ_drop]; rfl
    · simp [recWork, busyRec]; omega
  · obtain rfl : pos = (inp.length+2)/3 := by omega
    refine ⟨_, actU2_busy_eq, .inr ?_, .inr ⟨rfl, rfl, .inl ?_⟩⟩
    · have : inp.take (3 * ((inp.length+2)/3)) = inp := List.take_of_length_le (by omega)
      simp [b64enc_ok h hd hi, settled, this]
    · simp [recWork, busyRec]

/-- An action of a BUSY U3 goes on serving the transaction, and leaves one action less or ends it. -/
theorem actU3_serves {T inp r} (hb : BusyU3 T inp r) : ∃ r', actU3 r = .ok r' ∧ ServesU3 T inp r' ∧
    ((r'.phase = .busy ∧ recWork r'.toUnitRec + 1 = recWork r.toUnitRec) ∨
        (r'.phase = .done ∧ recWork r'.toUnitRec = 0 ∧
        (recWork r.toUnitRec = 1 ∨ r'.reason = some .unknownSymbol))) := by
  obtain ⟨pos, out, h, hd, hi, hm, hmp, hp, ho, rfl⟩ := hb
  have hrun := b64dec_run h hd hi hm hmp
  by_cases hlt : pos < inp.length / 4
  · have hg : 4*pos + 4 ≤ inp.length := by omega
    rw [actU3_busy_lt hg hlt, lookfun64]
    have hne : pos ≠ inp.length/4 := by omega
    simp only [hne, if_false] at ho
    have hq : ∃ s0 s1 s2 s3, (inp.drop (4*pos)).take 4 = [s0, s1, s2, s3] := by
      have : ((inp.drop (4*pos)).take 4).length = 4 := by simp; omega
      match (inp.drop (4*pos)).take 4, this with
      | [a, b, c, d], _ => exact ⟨a, b, c, d, rfl⟩
    obtain ⟨s0, s1, s2, s3, hs⟩ := hq
    have h2 : inp.take (4*(pos+1)) = inp.take (4*pos) ++ [s0, s1, s2, s3] := by
      rw [← hs, take_succ_drop]; rfl
    -- the effective p
    have hm4 : dataSyms pos (inp.length/4) (padCount T inp) =
        4 - (if pos+1 = inp.length/4 then padCount T inp else 0 : Fin 3).val := by
      unfold dataSyms
      have : (pos + 1 < inp.length/4) ↔ ¬ (pos+1 = inp.length/4) := by omega
      by_cases hl : pos + 1 = inp.length/4 <;> simp [hl]
      · intro h0; simp [h0]
      · omega
    have htake : (inp.drop (4*pos)).take (dataSyms pos (inp.length/4) (padCount T inp)) =
        [s0,s1,s2,s3].take (dataSyms pos (inp.length/4) (padCount T inp)) := by
      have := (dataSyms_range pos (inp.length/4) (padCount T inp)).2
      rw [← hs, List.take_take, min_eq_left this]
    rw [htake]
    have hdec : b64decAll (sym2sext T) (if pos+1 = inp.length/4 then padCount T inp else 0) (inp.take (4*(pos+1))) =
        match lookupAll (sym2sext T) ([s0,s1,s2,s3].take (dataSyms pos (inp.length/4) (padCount T inp))) with
        | none => .error .unknownSymbol
        | some vs => .ok (out ++ b64decGroup vs) := by
      rw [h2, b64decAll_append _ _ _ _ (by simp; omega) (by simp), ho]
      simp only [b64decAll_group, if_true, hm4]
      cases lookupAll (sym2sext T) ([s0,s1,s2,s3].take (4 - (if pos+1 = inp.length/4 then padCount T inp else 0 :
          Fin 3).val)) <;> simp [Except.map, b64decAll]
    cases hl : lookupAll (sym2sext T) ([s0,s1,s2,s3].take (dataSyms pos (inp.length/4) (padCount T inp))) with
    | none =>
      refine ⟨_, rfl, .inr ?_, .inr ⟨rfl, rfl, .inr rfl⟩⟩
      simp only [hl] at hdec
      have : b64decAll (sym2sext T) (padCount T inp) inp = .error .unknownSymbol := by
        by_cases hlast : pos + 1 = inp.length/4
        · have : inp.take (4*(pos+1)) = inp := List.take_of_length_le (by omega)
          rw [this] at hdec; simpa [hlast] using hdec
        · have e : inp = inp.take (4*(pos+1)) ++ inp.drop (4*(pos+1)) := by simp
          have hne : inp.drop (4*(pos+1)) ≠ [] := by simp; omega
          simp only [hlast, if_false] at hdec
          conv => lhs; arg 3; rw [e]
          rw [b64decAll_append _ _ _ _ (by simp; omega) hne, hdec]
      rw [hrun, this]; rfl
    | some vs =>
      simp only [hl] at hdec
      exact ⟨_, rfl, .inl ⟨pos+1, _, h, hd, hi, hm, hmp, hlt, hdec, rfl⟩,
          .inl ⟨rfl, by simp [recWork, busyRec]; omega⟩⟩
  · obtain rfl : pos = inp.length / 4 := by omega
    refine ⟨_, actU3_busy_eq, .inr ?_, .inr ⟨rfl, rfl, .inl ?_⟩⟩
    · have : inp.take (4 * (inp.length/4)) = inp := List.take_of_length_le (by omega)
      rw [this] at ho
      simp only [if_true] at ho
      simp [hrun, ho, settled64, settledDec, settled]
    · simp [recWork, busyRec]

/-- R161: a START of U0 serves the transaction of its operands. -/
theorem startU0_serves (T inp) : ServesU0 T inp (startU0 T inp) := by
  unfold startU0
  cases h : startReason 16 1 inp.length T false with
  | some r =>
    right
    unfold startReason at h
    unfold b16enc
    split_ifs at h with a b c <;> simp_all [UnitRec.failed, settled]
    omega
  | none =>
    left
    obtain ⟨a,b,c,_,_⟩ := startReason_eq_none.1 h
    exact ⟨b, 0, c, by simpa using a, by omega, rfl⟩

/-- R161: a START of U1 serves the transaction of its operands. -/
theorem startU1_serves (T inp) : ServesU1 T inp (startU1 T inp) := by
  unfold startU1
  cases h : startReason 16 2 inp.length T false with
  | some r =>
    right
    unfold startReason at h
    unfold b16dec
    split_ifs at h with a b c <;> simp_all [DecUnit.failed, UnitRec.failed, settledDec, settled]
  | none =>
    left
    obtain ⟨a,b,c,d,_⟩ := startReason_eq_none.1 h
    exact ⟨0, [], b, c, by simpa using a, d, by omega, by simp [b16decAll], rfl⟩

/-- R161: a START of U2 serves the transaction of its operands. -/
theorem startU2_serves (T inp) : ServesU2 T inp (startU2 T inp) := by
  unfold startU2
  cases h : startReason 65 1 inp.length T false with
  | some r =>
    right
    unfold startReason at h
    unfold b64enc
    split_ifs at h with a b c <;> simp_all [UnitRec.failed, settled]
    omega
  | none =>
    left
    obtain ⟨a,b,c,_,_⟩ := startReason_eq_none.1 h
    exact ⟨b, 0, c, by simpa using a, by omega, by simp [b64encAll, UnitRec.started, busyRec]⟩

/-- R161: a START of U3 serves the transaction of its operands. -/
theorem startU3_serves (T inp) : ServesU3 T inp (startU3 T inp) := by
  unfold startU3
  cases h : startReason 65 4 inp.length T (misplacedPadding T inp) with
  | some r =>
    right
    unfold startReason at h
    unfold b64dec
    split_ifs at h with a b c <;>
        simp_all [Dec64Unit.failed, DecUnit.failed, UnitRec.failed, settled64, settledDec, settled]
  | none =>
    left
    obtain ⟨a,b,c,d,e⟩ := startReason_eq_none.1 h
    exact ⟨0, [], b, c, by simpa using a, d, e, by omega, by simp [b64decAll], rfl⟩

theorem busyU0_phase {T inp r} (h : BusyU0 T inp r) : r.phase = .busy := by obtain ⟨_,_,_,_,_,rfl⟩ := h; rfl

theorem busyU1_phase {T inp r} (h : BusyU1 T inp r) : r.phase = .busy := by obtain ⟨_,_,_,_,_,_,_,_,rfl⟩ := h; rfl

theorem busyU2_phase {T inp r} (h : BusyU2 T inp r) : r.phase = .busy := by obtain ⟨_,_,_,_,_,rfl⟩ := h; rfl

theorem busyU3_phase {T inp r} (h : BusyU3 T inp r) : r.phase = .busy := by obtain ⟨_,_,_,_,_,_,_,_,_,rfl⟩ := h; rfl

theorem settled_phase {α β} (x : Except Reason (List β)) : (settled x : UnitRec α β).phase = .done := by
  cases x <;> rfl

theorem servesU0_phase {T inp r} (h : ServesU0 T inp r) : r.phase = .busy ∨ r.phase = .done :=
    h.imp busyU0_phase (fun h => by rw [h, settled_phase])

theorem servesU1_phase {T inp r} (h : ServesU1 T inp r) : r.phase = .busy ∨ r.phase = .done :=
    h.imp busyU1_phase (fun h => by rw [h]; exact settled_phase _)

theorem servesU2_phase {T inp r} (h : ServesU2 T inp r) : r.phase = .busy ∨ r.phase = .done :=
    h.imp busyU2_phase (fun h => by rw [h, settled_phase])

theorem servesU3_phase {T inp r} (h : ServesU3 T inp r) : r.phase = .busy ∨ r.phase = .done :=
    h.imp busyU3_phase (fun h => by rw [h]; exact settled_phase _)

/-- Offered its action, a U0 that serves a transaction goes on serving it. -/
theorem actU0_keeps {T inp r} (h : ServesU0 T inp r) : ∃ r', actU0 r = .ok r' ∧ ServesU0 T inp r' := by
  rcases h with h | h
  · obtain ⟨r', a, b, _⟩ := actU0_serves h; exact ⟨r', a, b⟩
  · refine ⟨r, ?_, .inr h⟩; simp [actU0, h, settled_phase]

/-- Offered its action, a U1 that serves a transaction goes on serving it. -/
theorem actU1_keeps {T inp r} (h : ServesU1 T inp r) : ∃ r', actU1 r = .ok r' ∧ ServesU1 T inp r' := by
  rcases h with h | h
  · obtain ⟨r', a, b, _⟩ := actU1_serves h; exact ⟨r', a, b⟩
  · refine ⟨r, ?_, .inr h⟩; simp [actU1, h, settledDec, settled_phase]

/-- Offered its action, a U2 that serves a transaction goes on serving it. -/
theorem actU2_keeps {T inp r} (h : ServesU2 T inp r) : ∃ r', actU2 r = .ok r' ∧ ServesU2 T inp r' := by
  rcases h with h | h
  · obtain ⟨r', a, b, _⟩ := actU2_serves h; exact ⟨r', a, b⟩
  · refine ⟨r, ?_, .inr h⟩; simp [actU2, h, settled_phase]

/-- Offered its action, a U3 that serves a transaction goes on serving it. -/
theorem actU3_keeps {T inp r} (h : ServesU3 T inp r) : ∃ r', actU3 r = .ok r' ∧ ServesU3 T inp r' := by
  rcases h with h | h
  · obtain ⟨r', a, b, _⟩ := actU3_serves h; exact ⟨r', a, b⟩
  · refine ⟨r, ?_, .inr h⟩; simp [actU3, h, settled64, settledDec, settled_phase]

end Sys2Proof.Machine
end

