-- ==== Sys2Proof/Tests/Slice0.lean ====
section
/-! SUPPORT. The model's own tests, each on one small state, with expected results from the spec (95_test_vectors.md
or the rule named), and for every obligation with hypotheses a witness that meets them. -/

namespace Sys2Proof.Tests

open Sys2Proof.Machine Sys2Proof.Safety

/-! ## Well-formedness and decoding -/

/-- R6: `SYM_W >= 7`. -/
theorem test_params_symbols_too_narrow : ({ symW := some 6, maxLen := none, tmax := none } : Config.Params).wellFormed = false := by
  decide

/-- R6: `TMAX >= 65`. -/
theorem test_params_table_port_too_short : ({ symW := some 8, maxLen := none, tmax := some 64 } : Config.Params).wellFormed = false := by
  decide

theorem test_params_least : ({ symW := some 7, maxLen := some 0, tmax := some 65 } : Config.Params).wellFormed = true := by
  decide

/-- R73: there is no ill-formed command, so the check refuses none. -/
theorem test_every_command_well_formed : ∀ d, (Instr.b16enc d).wellFormed = true ∧ (Instr.b16dec d).wellFormed = true ∧
    (Instr.b64enc d).wellFormed = true ∧ (Instr.b64dec d).wellFormed = true := by decide

/-- R70, R71: cmd[2] dflt = 1, cmd[1] base16 = 0, cmd[0] encode = 0. -/
theorem test_decode_b16enc : decodeWord 0b100 = .ok (.b16enc true) := by decide

/-- R70, R71: dflt = 0, base16 = 0, decode = 1. -/
theorem test_decode_b16dec : decodeWord 0b001 = .ok (.b16dec false) := by decide

/-- R70, R71: dflt = 0, base64 = 1, encode = 0. -/
theorem test_decode_b64enc : decodeWord 0b010 = .ok (.b64enc false) := by decide

/-- R70, R71: dflt = 1, base64 = 1, decode = 1. -/
theorem test_decode_b64dec : decodeWord 0b111 = .ok (.b64dec true) := by decide

/-- R70: a command is always three bits long. -/
theorem test_decode_refuses_four_bits : decodeWord 0b1000 = .error .widerThanThreeBits := by decide

/-! ## States -/

/-- The state after RESET with operands standing at the ports. -/
def atPorts (tbl : List Sym) (inB : List Byte) (inS : List Sym) : State :=
  { State.reset with ports := { Ports.quiet with tbl := tbl, inB := inB, inS := inS } }

/-- R78: `0123456789abcdef`. -/
def lowerB16 : List Sym := List.range' 0x30 10 ++ List.range' 0x61 6

/-- `4A0F`. -/
def sym4A0F : List Sym := [0x34, 0x41, 0x30, 0x46]

/-- `TQ==`. -/
def symTQ : List Sym := [0x54, 0x51, 0x3D, 0x3D]

/-- The four units BUSY on the worked examples V1, V2, V5 and V6, nothing processed. -/
def allBusy : State :=
  { State.reset with
    u0 := startU0 defaultB16 [0x4A, 0x0F]
    u1 := startU1 lowerB16 [0x34, 0x61, 0x30, 0x66]
    u2 := startU2 defaultB64 [0x4D]
    u3 := startU3 defaultB64 symTQ }

/-- The four units DONE: U0 and U2 with a result, U1 and U3 failed. -/
def allDone : State :=
  { State.reset with
    u0 := UnitRec.ended sym4A0F .ok
    u1 := DecUnit.failed .inputLength
    u2 := UnitRec.ended symTQ .ok
    u3 := Dec64Unit.failed .padding }

/-- A machine that no RESET has reached. -/
def beforeReset : State := { State.reset with wasReset := false }

/-- A machine with the smallest parameters of R6, and an input and a table beyond them. -/
def bounded : State :=
  { atPorts [] [0x4D, 0x61] [0x54, 0x54] with params := { symW := some 7, maxLen := some 1, tmax := some 65 } }

/-- U0's record in a next state. -/
def u0After : Result → Option EncUnit
  | .next t => some t.u0
  | .fault _ => none
  | .refused _ => none

/-- The four units BUSY with no granule left, on the same examples. -/
def allAtEnd : State :=
  { State.reset with
    u0 := busyRec defaultB16 [0x4A, 0x0F] 2 2 sym4A0F
    u1 := { toUnitRec := busyRec lowerB16 [0x34, 0x61, 0x30, 0x66] 2 2 [0x4A, 0x0F],
            RLUT := some (buildRlut16 lowerB16) }
    u2 := busyRec defaultB64 [0x4D] 1 1 symTQ
    u3 := { toUnitRec := busyRec defaultB64 symTQ 1 1 [0x4D], RLUT := some (buildRlut64 defaultB64),
            npad := some 2 } }

/-! ## The four commands, one step each -/

/-- V1, R102: the first granule of `[0x4A, 0x0F]` is `4`, `A`. -/
theorem test_b16enc_granule :
    (actU0 allBusy.u0).toOption.map (fun r => (r.OUT, r.pos)) = some (some [0x34, 0x41], some 1) := by decide

/-- A14, R184: an empty input beats a bad table. -/
theorem test_b16enc_empty_input :
    startU0 [0x30, 0x31, 0x32] [] = UnitRec.ended [] .emptyInput := by decide

/-- V2, R114: the first pair of `4a0f` in the lower-case table is 0x4A. -/
theorem test_b16dec_granule :
    (actU1 allBusy.u1).toOption.map (fun r => (r.OUT, r.pos)) = some (some [0x4A], some 1) := by decide

/-- R116: an odd length beats an unknown symbol. -/
theorem test_b16dec_odd_length :
    (startU1 defaultB16 [0x34, 0x47, 0x30]).reason = some .inputLength := by decide

/-- V5, R128: `[0x4D]` gives `TQ==`. -/
theorem test_b64enc_tail :
    (actU2 allBusy.u2).toOption.map (fun r => (r.OUT, r.pos)) = some (some symTQ, some 1) := by decide +kernel

/-- R132: a padding symbol equal to a data symbol is a duplicate. -/
theorem test_b64enc_padding_entry_duplicate :
    (startU2 (defaultB64.take 64 ++ [0x41]) [0x4D]).reason = some .tableDuplicate := by decide +kernel

/-- R148, R150: `TR==` gives `[0x4D]`, its discarded bits not checked. -/
theorem test_b64dec_discarded_bits :
    (actU3 (startU3 defaultB64 [0x54, 0x52, 0x3D, 0x3D])).toOption.map (fun r => r.OUT) = some (some [0x4D]) := by
  decide +kernel

/-- R142 (c), R150: `TQ=A` is misplaced padding. -/
theorem test_b64dec_misplaced_padding :
    (startU3 defaultB64 [0x54, 0x51, 0x3D, 0x41]).reason = some .padding := by decide +kernel

/-- R172: a START and an ACK to the same DONE unit in one step leave it BUSY on the new transaction. -/
theorem test_ack_and_start_together :
    u0After (step { allDone with run := [.host { Ports.quiet with cmdValid := true, cmd := 0b100, ack0 := true,
                                                                  inB := [0x00] }] }) =
      some (busyRec defaultB16 [0x00] 0 1 []) := by decide

/-- R29: a record that no transaction makes, BUSY with no table, faults and gives no value. -/
theorem test_invalid_read_faults :
    unitAct .u0 { State.reset with u0 := { startU0 defaultB16 [0x00] with T := none } } =
      .fault (.invalidRead .u0 .T) := rfl

/-- The host's placement of a command word after reset: the very next step is the START (R161: empty input). -/
theorem test_placed_word_runs :
    u0After (step (State.reset.withFetchWord 8 0b000)) = some (UnitRec.ended [] .emptyInput) := by decide

/-! ## Witnesses: states and operands that meet the hypotheses of the obligations -/

theorem busy_u0 : BusyU0 defaultB16 [0x4A, 0x0F] allBusy.u0 :=
  ⟨rfl, 0, by decide, by decide, by decide, rfl⟩

theorem busy_u1 : BusyU1 lowerB16 [0x34, 0x61, 0x30, 0x66] allBusy.u1 :=
  ⟨0, [], rfl, by decide, by decide, by decide, by decide, rfl, by decide⟩

theorem busy_u2 : BusyU2 defaultB64 [0x4D] allBusy.u2 :=
  ⟨rfl, 0, by decide +kernel, by decide, by decide, by decide +kernel⟩

theorem busy_u3 : BusyU3 defaultB64 symTQ allBusy.u3 :=
  ⟨0, [], rfl, by decide +kernel, by decide, by decide, by decide +kernel, by decide, rfl, by decide +kernel⟩

theorem atEnd_u0 : BusyU0 defaultB16 [0x4A, 0x0F] allAtEnd.u0 ∧ allAtEnd.u0.pos = allAtEnd.u0.ngran :=
  ⟨⟨rfl, 2, by decide, by decide, by decide, by decide⟩, rfl⟩

theorem atEnd_u1 : BusyU1 lowerB16 [0x34, 0x61, 0x30, 0x66] allAtEnd.u1 ∧ allAtEnd.u1.pos = allAtEnd.u1.ngran :=
  ⟨⟨2, [0x4A, 0x0F], rfl, by decide, by decide, by decide, by decide, by decide, by decide⟩, rfl⟩

theorem atEnd_u2 : BusyU2 defaultB64 [0x4D] allAtEnd.u2 ∧ allAtEnd.u2.pos = allAtEnd.u2.ngran :=
  ⟨⟨rfl, 1, by decide +kernel, by decide, by decide, by decide +kernel⟩, rfl⟩

theorem atEnd_u3 : BusyU3 defaultB64 symTQ allAtEnd.u3 ∧ allAtEnd.u3.pos = allAtEnd.u3.ngran :=
  ⟨⟨1, [0x4D], rfl, by decide +kernel, by decide, by decide, by decide +kernel, by decide, by decide +kernel,
    by decide +kernel⟩, rfl⟩

theorem allBusy_inv : UnitsInv allBusy :=
  ⟨.inr ⟨_, _, .inl busy_u0⟩, .inr ⟨_, _, .inl busy_u1⟩, .inr ⟨_, _, .inl busy_u2⟩, .inr ⟨_, _, .inl busy_u3⟩⟩

theorem allDone_inv : UnitsInv allDone :=
  ⟨.inr ⟨defaultB16, [0x4A, 0x0F], .inr (by decide)⟩, .inr ⟨defaultB16, [0x30], .inr (by decide)⟩,
    .inr ⟨defaultB64, [0x4D], .inr (by decide +kernel)⟩,
    .inr ⟨defaultB64, [0x3D, 0x3D, 0x3D, 0x3D], .inr (by decide +kernel)⟩⟩

theorem valid16_default : ValidTable 16 defaultB16 := (validTable_iff 16 _).2 ⟨rfl, by decide⟩

theorem valid65_default : ValidTable 65 defaultB64 := (validTable_iff 65 _).2 ⟨rfl, by decide +kernel⟩

/-- A valid table, an input of a right length and well-placed padding leave no condition of START. -/
theorem no_condition {L gran n : Nat} {T : List Sym} {placed : Prop} (hT : ValidTable L T) (hn : n ≠ 0)
    (hg : n % gran = 0) (hp : placed) : NoCondition (StartCondition L gran n T placed) := by
  intro k h
  match k, h with
  | 1, h => exact hn h
  | 2, h => exact h hT.1
  | 3, ⟨i, j, hij, hj, e⟩ => exact hT.2 i j hij hj e
  | 4, h => exact h hg
  | 5, h => exact h hp

/-- An empty input is the least condition, whatever else holds. -/
theorem empty_is_least {L gran : Nat} {T : List Sym} {placed : Prop} :
    LeastCondition (StartCondition L gran 0 T placed) (reasonCode .emptyInput).toNat := by
  refine ⟨rfl, fun k hk => ?_⟩
  have : k = 0 := by simpa [reasonCode] using hk
  subst this
  exact id

/-- Condition 5 is the least of `TQ=A`, the last of START's conditions. -/
theorem padding_is_least :
    LeastCondition (StartCondition 65 4 4 defaultB64 (PaddingPlaced defaultB64 [0x54, 0x51, 0x3D, 0x41]))
      (reasonCode .padding).toNat := by
  refine ⟨?_, fun k hk h => ?_⟩
  · rintro (h | h | h)
    · exact h 2 (by decide) (by decide)
    · exact absurd ((h 2 (by decide)).1 (by decide)) (by decide)
    · exact absurd ((h 3 (by decide)).2 (by decide)) (by decide)
  · have hk : k < 5 := hk
    have nc := no_condition (gran := 4) (n := 4) (placed := True) valid65_default (by decide) rfl trivial k
    match k, hk, h, nc with
    | 0, _, h, nc => exact nc h
    | 1, _, h, nc => exact nc h
    | 2, _, h, nc => exact nc h
    | 3, _, h, nc => exact nc h
    | 4, _, h, nc => exact nc h

/-- `TQ==` has its padding in the last two positions. -/
theorem placed_two : PaddingPlaced defaultB64 symTQ := by
  refine .inr (.inr fun i hi => ?_)
  have hi : i < 4 := hi
  interval_cases i <;> decide

/-- `TWE=` has its padding in the last position. -/
theorem placed_one : PaddingPlaced defaultB64 [0x54, 0x57, 0x45, 0x3D] := by
  refine .inr (.inl fun i hi => ?_)
  have hi : i < 4 := hi
  interval_cases i <;> decide

/-- `TWFu` has no padding. -/
theorem placed_none : PaddingPlaced defaultB64 [0x54, 0x57, 0x46, 0x75] := by
  refine .inl fun i hi => ?_
  have hi : i < 4 := hi
  interval_cases i <;> decide

/-- A unit's move releases no unit. -/
theorem unit_move_releases_none {s : State} {v : UnitId} {rest : List Move} (h : s.run = .unit v :: rest) (u : UnitId) :
    ¬ Releases u s := by
  rintro ⟨p, r, h', _⟩
  rw [h] at h'
  cases h'

theorem fits_abstract (tbl inS : List Sym) (inB : List Byte) (d : Bool) :
    EncodeOperandsFit d (atPorts tbl inB inS) ∧ DecodeOperandsFit d (atPorts tbl inB inS) := by
  refine ⟨⟨fun _ => ⟨nofun, nofun⟩, nofun⟩, ⟨fun _ => ⟨nofun, nofun⟩, nofun, nofun⟩⟩

/-- The cases where a claim quantifies over what the parameters bound, at the bounds themselves: an input of MAX_LEN = 2
elements, a table of TMAX = 65 entries of 7-bit symbols. -/
def atBounds : State :=
  { atPorts (List.range' 63 65) [0x4D, 0x61] [127, 0] with
    params := { symW := some 7, maxLen := some 2, tmax := some 65 } }

theorem fits_at_bounds (d : Bool) : EncodeOperandsFit d atBounds ∧ DecodeOperandsFit d atBounds := by
  have ht : ∀ t, atBounds.params.tmax = some t → atBounds.ports.tbl.length ≤ t := by rintro t ⟨⟩; decide
  have hw : ∀ w, atBounds.params.symW = some w → ∀ x ∈ atBounds.ports.tbl, x < 2 ^ w := by
    rintro w ⟨⟩ x hx
    have h : x ∈ List.range' 63 65 := hx
    rw [List.mem_range'_1] at h
    exact Nat.lt_of_lt_of_le h.2 (by decide)
  have hs : ∀ w, atBounds.params.symW = some w → ∀ x ∈ atBounds.ports.inS, x < 2 ^ w := by
    rintro w ⟨⟩; decide
  exact ⟨⟨fun _ => ⟨ht, hw⟩, by rintro m ⟨⟩; decide⟩, fun _ => ⟨ht, hw⟩, by rintro m ⟨⟩; decide, hs⟩

/-! ### Encoding and operands -/

theorem witness_EncodeAndDecodeAgree : (Instr.b64dec true).wellFormed = true ∧ 7 < 8 ∧ 8 ≤ 8 := by decide

theorem witness_DefaultTablesAreValid :
    b16enc [] defaultB16 = .error .emptyInput ∧ b16dec [0x30] defaultB16 = .error .inputLength ∧
    b64enc [] defaultB64 = .error .emptyInput ∧ b64dec [0x41] defaultB64 = .error .inputLength := by decide +kernel

theorem witness_TableCheckIsPairwiseDistinctness :
    ([0x4A] : List Byte) ≠ [] ∧ b16dec [0x34, 0x61] lowerB16 = .ok [0x4A] ∧
    b64dec symTQ defaultB64 = .ok [0x4D] := by decide +kernel

theorem witness_ReverseLookupIsTheUniqueIndex : distinct defaultB64 = true ∧ defaultB64.length = 65 := by
  decide +kernel

theorem witness_PairRecombine : sym2nib lowerB16 0x34 = some 4 ∧ sym2nib lowerB16 0x61 = some 10 := by decide

/-- V3: `0x4D616E` is the sextets 19, 22, 5, 46. -/
theorem witness_GroupViewsAsNumbers :
    group3to4 0x4D 0x61 0x6E = (19, 22, 5, 46) ∧ ungroup4to3 19 22 5 46 = (0x4D, 0x61, 0x6E) := by decide

theorem witness_GrouperAndUngrouperAreInverse :
    group3to4 0xFF 0xFF 0xFF = (63, 63, 63, 63) ∧ ungroup4to3 0 0 0 0 = (0, 0, 0) := by decide

theorem witness_PaddingCheckIsThePlacement :
    defaultB64.length = 65 ∧ symTQ ≠ [] ∧ symTQ.length % 4 = 0 ∧ PaddingPlaced defaultB64 symTQ ∧
    PaddingPlaced defaultB64 [0x54, 0x57, 0x45, 0x3D] ∧ PaddingPlaced defaultB64 [0x54, 0x57, 0x46, 0x75] :=
  ⟨rfl, by decide, rfl, placed_two, placed_one, placed_none⟩

/-! ### The transaction functions -/

/-- V1, V2, V5, V6. -/
theorem witness_LengthLaws :
    b16enc [0x4A, 0x0F] defaultB16 = .ok sym4A0F ∧
    b16dec [0x34, 0x61, 0x30, 0x66] lowerB16 = .ok [0x4A, 0x0F] ∧
    b64enc [0x4D] defaultB64 = .ok symTQ ∧ b64dec symTQ defaultB64 = .ok [0x4D] := by decide +kernel

theorem witness_Base16EncodePositions :
    b16enc [0x4A, 0x0F] defaultB16 = .ok sym4A0F ∧ ([0x4A, 0x0F] : List Byte)[1]? = some 0x0F ∧
    (0x46 : Sym) ∈ sym4A0F := by decide

/-- The last data position and the first padding position of V4, `TWE=`. -/
theorem witness_Base64EncodePadding :
    b64enc [0x4D, 0x61] defaultB64 = .ok [0x54, 0x57, 0x45, 0x3D] ∧
    ([0x54, 0x57, 0x45, 0x3D] : List Sym)[2]? = some 0x45 ∧ 2 + (3 - 2 % 3) % 3 < 4 ∧
    ([0x54, 0x57, 0x45, 0x3D] : List Sym)[3]? = some 0x3D := by decide +kernel

theorem witness_PiecewiseLaws :
    b16enc [0x4A] defaultB16 = .ok [0x34, 0x41] ∧ b16enc [0x0F] defaultB16 = .ok [0x30, 0x46] ∧
    b16dec [0x34, 0x41] defaultB16 = .ok [0x4A] ∧ b16dec [0x30, 0x46] defaultB16 = .ok [0x0F] ∧
    ([0x4D, 0x61, 0x6E] : List Byte).length % 3 = 0 ∧
    b64enc [0x4D, 0x61, 0x6E] defaultB64 = .ok [0x54, 0x57, 0x46, 0x75] ∧ b64enc [0x4D] defaultB64 = .ok symTQ ∧
    padCount defaultB64 [0x54, 0x57, 0x46, 0x75] = 0 ∧
    b64dec [0x54, 0x57, 0x46, 0x75] defaultB64 = .ok [0x4D, 0x61, 0x6E] ∧
    b64dec symTQ defaultB64 = .ok [0x4D] := by decide +kernel

theorem witness_Base16RoundTrip :
    b16enc [0xFF] defaultB16 = .ok [0x46, 0x46] ∧ b16dec [0x46, 0x46] defaultB16 = .ok [0xFF] := by decide

theorem witness_Base64RoundTrip : b64enc [0xFF, 0xFF] defaultB64 = .ok [0x2F, 0x2F, 0x38, 0x3D] := by decide +kernel

/-- R149 (d): `TQ==` is canonical, `TR==` is not; both decode to `[0x4D]`. -/
theorem witness_Base64ReencodesCanonicalInput :
    b64dec symTQ defaultB64 = .ok [0x4D] ∧ b64dec [0x54, 0x52, 0x3D, 0x3D] defaultB64 = .ok [0x4D] := by
  decide +kernel

theorem witness_DecodersSucceedExactly : ValidTable 16 defaultB16 ∧ ValidTable 65 defaultB64 :=
  ⟨valid16_default, valid65_default⟩

theorem witness_DiscardedBitsAreDropped :
    (4 : Sext).toNat / 4 = (7 : Sext).toNat / 4 ∧ (16 : Sext).toNat / 16 = (31 : Sext).toNat / 16 := by decide

/-- Each operation failing, the decoders by a condition of START and by an unknown symbol. -/
theorem witness_LeastReasonIsReported :
    b16enc [] [] = .error .emptyInput ∧ b16dec [0x30] defaultB16 = .error .inputLength ∧
    b16dec [0x34, 0x47] defaultB16 = .error .unknownSymbol ∧ b64enc [0x4D] [] = .error .tableLength ∧
    b64dec [0x54, 0x51, 0x3D, 0x41] defaultB64 = .error .padding ∧
    b64dec [0x54, 0x51, 0x3F, 0x3D] defaultB64 = .error .unknownSymbol := by decide +kernel

/-! ### START -/

/-- For each unit an idle state, operands that fit, and both the least condition and no condition; and a unit that is
not IDLE. -/
theorem witness_StartTakesTheCommandOrFails :
    (allBusy.wasReset = true ∧ allBusy.phase (unitOf (.b64dec true)) ≠ .idle) ∧
    (∀ d, (atPorts [] [0x4D] symTQ).wasReset = true ∧ (atPorts [] [0x4D] symTQ).u0.phase = .idle ∧
      (atPorts [] [0x4D] symTQ).u1.phase = .idle ∧ (atPorts [] [0x4D] symTQ).u2.phase = .idle ∧
      (atPorts [] [0x4D] symTQ).u3.phase = .idle ∧ EncodeOperandsFit d (atPorts [] [0x4D] symTQ) ∧
      DecodeOperandsFit d (atPorts [] [0x4D] symTQ) ∧ EncodeOperandsFit d atBounds ∧ DecodeOperandsFit d atBounds) ∧
    LeastCondition (StartCondition 16 1 0 defaultB16 True) (reasonCode .emptyInput).toNat ∧
    NoCondition (StartCondition 16 1 1 defaultB16 True) ∧
    LeastCondition (StartCondition 16 2 0 defaultB16 True) (reasonCode .emptyInput).toNat ∧
    NoCondition (StartCondition 16 2 2 defaultB16 True) ∧
    LeastCondition (StartCondition 65 1 0 defaultB64 True) (reasonCode .emptyInput).toNat ∧
    NoCondition (StartCondition 65 1 1 defaultB64 True) ∧
    LeastCondition (StartCondition 65 4 4 defaultB64 (PaddingPlaced defaultB64 [0x54, 0x51, 0x3D, 0x41]))
      (reasonCode .padding).toNat ∧
    NoCondition (StartCondition 65 4 4 defaultB64 (PaddingPlaced defaultB64 symTQ)) :=
  ⟨⟨rfl, by decide +kernel⟩,
    fun d => ⟨rfl, rfl, rfl, rfl, rfl, (fits_abstract _ _ _ d).1, (fits_abstract _ _ _ d).2, (fits_at_bounds d).1,
      (fits_at_bounds d).2⟩,
    empty_is_least, no_condition valid16_default (by decide) rfl trivial,
    empty_is_least, no_condition valid16_default (by decide) rfl trivial,
    empty_is_least, no_condition valid65_default (by decide) rfl trivial,
    padding_is_least, no_condition valid65_default (by decide) rfl placed_two⟩

/-- A START that is taken by U0 while the other three are BUSY, or are IDLE. -/
theorem witness_StartToABusyUnitIsDropped :
    (allBusy.wasReset = true ∧ allBusy.phase (unitOf (.b16enc true)) ≠ .idle) ∧
    SameUnit (unitOf (.b16enc true)) State.reset { allBusy with u0 := UnitRec.idle } ∧
    SameAround State.reset { allBusy with u0 := UnitRec.idle } ∧
    exec (.b16enc true) State.reset = .next { State.reset with u0 := UnitRec.ended [] .emptyInput } :=
  ⟨⟨rfl, by decide⟩, rfl, ⟨rfl, rfl, rfl, rfl, rfl⟩, rfl⟩

/-- Operands beyond MAX_LEN, TMAX and SYM_W, for each of the four commands. -/
theorem witness_OperandsBeyondTheBoundsAreRefused :
    (bounded.wasReset = true ∧ ∀ u, bounded.phase u = .idle) ∧
    exec (.b16enc true) bounded = .refused .inputTooLong ∧ exec (.b64enc true) bounded = .refused .inputTooLong ∧
    exec (.b16dec true) bounded = .refused .inputTooLong ∧ exec (.b64dec true) bounded = .refused .inputTooLong ∧
    exec (.b16enc false) { atBounds with ports := { atBounds.ports with tbl := List.replicate 66 0 } } =
      .refused .tableTooLong ∧
    exec (.b64dec true) { atBounds with ports := { atBounds.ports with inS := [128] } } = .refused .symbolTooWide :=
  ⟨⟨rfl, fun u => by cases u <;> rfl⟩, rfl, rfl, rfl, rfl, rfl, rfl⟩

theorem witness_CommandFrame :
    exec (.b64dec true) allBusy = .next allBusy ∧ UnitId.u0 ≠ unitOf (.b64dec true) ∧
    exec (.b16dec false) (atPorts lowerB16 [] [0x34]) =
      .next { atPorts lowerB16 [] [0x34] with u1 := DecUnit.failed .inputLength } :=
  ⟨rfl, by decide, rfl⟩

/-! ### Granule steps and FINISH -/

/-- The last byte of `[0x4A, 0x0F]`, and the end. -/
theorem witness_GranuleOfB16enc :
    (∃ s : State, s.u0 = busyRec defaultB16 [0x4A, 0x0F] 1 2 [0x34, 0x41]) ∧ defaultB16.length = 16 ∧
    ([0x4A, 0x0F] : List Byte)[1]? = some 0x0F ∧ ([0x34, 0x41] : List Sym).length = 2 * 1 ∧
    BusyU0 defaultB16 [0x4A, 0x0F] allAtEnd.u0 ∧ allAtEnd.u0.pos = allAtEnd.u0.ngran :=
  ⟨⟨{ State.reset with u0 := _ }, rfl⟩, rfl, rfl, rfl, atEnd_u0⟩

/-- The first pair of `4a0f`, known symbols; the pair `4G`, the second unknown; and the end. -/
theorem witness_GranuleOfB16dec :
    allBusy.u1 = { toUnitRec := busyRec lowerB16 [0x34, 0x61, 0x30, 0x66] 0 2 [], RLUT := some (buildRlut16 lowerB16) } ∧
    (buildRlut16 lowerB16).lookup 0x34 = some 4 ∧ (buildRlut16 lowerB16).lookup 0x61 = some 10 ∧
    (startU1 lowerB16 [0x34, 0x47]) =
      { toUnitRec := busyRec lowerB16 [0x34, 0x47] 0 1 [], RLUT := some (buildRlut16 lowerB16) } ∧
    (buildRlut16 lowerB16).lookup 0x47 = none ∧
    BusyU1 lowerB16 [0x34, 0x61, 0x30, 0x66] allAtEnd.u1 ∧ allAtEnd.u1.pos = allAtEnd.u1.ngran :=
  ⟨by decide, by decide, by decide, by decide, by decide, atEnd_u1⟩

/-- A one-byte tail granule, and the end. -/
theorem witness_GranuleOfB64enc :
    allBusy.u2 = busyRec defaultB64 [0x4D] 0 ((1 + 2) / 3) [] ∧ defaultB64.length = 65 ∧ 0 < (1 + 2) / 3 ∧
    ([] : List Sym).length = 4 * 0 ∧ BusyU2 defaultB64 [0x4D] allAtEnd.u2 ∧ allAtEnd.u2.pos = allAtEnd.u2.ngran :=
  ⟨by decide +kernel, rfl, by decide, rfl, atEnd_u2⟩

/-- The two data symbols of `TQ==`, known; `T?==`, the second unknown; and the end. -/
theorem witness_GranuleOfB64dec :
    allBusy.u3 = { toUnitRec := busyRec defaultB64 symTQ 0 (4 / 4) [], RLUT := some (buildRlut64 defaultB64),
                   npad := some 2 } ∧ 0 < 4 / 4 ∧
    symTQ[0]? = some 0x54 ∧ (buildRlut64 defaultB64).lookup 0x54 = some (.data 19) ∧
    symTQ[1]? = some 0x51 ∧ (buildRlut64 defaultB64).lookup 0x51 = some (.data 16) ∧
    startU3 defaultB64 [0x54, 0x3F, 0x3D, 0x3D] =
      { toUnitRec := busyRec defaultB64 [0x54, 0x3F, 0x3D, 0x3D] 0 (4 / 4) [], RLUT := some (buildRlut64 defaultB64),
        npad := some 2 } ∧ (buildRlut64 defaultB64).lookup 0x3F = none ∧
    BusyU3 defaultB64 symTQ allAtEnd.u3 ∧ allAtEnd.u3.pos = allAtEnd.u3.ngran :=
  ⟨by decide +kernel, by decide, rfl, by decide +kernel, rfl, by decide +kernel, by decide +kernel, by decide +kernel,
    atEnd_u3⟩

theorem witness_FinishGivesTheWholeResult :
    allAtEnd.u0 = busyRec defaultB16 [0x4A, 0x0F] 2 2 sym4A0F ∧
    allAtEnd.u1 = { toUnitRec := busyRec lowerB16 [0x34, 0x61, 0x30, 0x66] 2 2 [0x4A, 0x0F],
                    RLUT := some (buildRlut16 lowerB16) } ∧
    allAtEnd.u2 = busyRec defaultB64 [0x4D] 1 1 symTQ ∧
    allAtEnd.u3 = { toUnitRec := busyRec defaultB64 symTQ 1 1 [0x4D], RLUT := some (buildRlut64 defaultB64),
                    npad := some 2 } ∧
    (BusyU0 defaultB16 [0x4A, 0x0F] allAtEnd.u0 ∧ allAtEnd.u0.pos = allAtEnd.u0.ngran) ∧
    (BusyU1 lowerB16 [0x34, 0x61, 0x30, 0x66] allAtEnd.u1 ∧ allAtEnd.u1.pos = allAtEnd.u1.ngran) ∧
    (BusyU2 defaultB64 [0x4D] allAtEnd.u2 ∧ allAtEnd.u2.pos = allAtEnd.u2.ngran) ∧
    (BusyU3 defaultB64 symTQ allAtEnd.u3 ∧ allAtEnd.u3.pos = allAtEnd.u3.ngran) :=
  ⟨rfl, rfl, rfl, rfl, atEnd_u0, atEnd_u1, atEnd_u2, atEnd_u3⟩

theorem witness_UnitActionFrame :
    unitAct .u0 allAtEnd = .next { allAtEnd with u0 := UnitRec.ended sym4A0F .ok } ∧ UnitId.u3 ≠ .u0 :=
  ⟨rfl, by decide⟩

theorem witness_UnitActionsCommute :
    UnitId.u0 ≠ .u2 ∧ unitAct .u0 allAtEnd = .next { allAtEnd with u0 := UnitRec.ended sym4A0F .ok } ∧
    unitAct .u2 { allAtEnd with u0 := UnitRec.ended sym4A0F .ok } =
      .next { allAtEnd with u0 := UnitRec.ended sym4A0F .ok, u2 := UnitRec.ended symTQ .ok } :=
  ⟨by decide, rfl, rfl⟩

/-! ### Host moves -/

/-- An ACK to a DONE unit; and a DONE unit kept over a step that is another unit's. -/
theorem witness_AckReleasesADoneUnit :
    (∃ s : State, s.wasReset = true ∧ s.run = [.host { Ports.quiet with ack0 := true }] ∧ s.phase .u0 = .done) ∧
    (∃ s t : State, step s = .next t ∧ s.phase .u0 = .done ∧ ¬ Releases .u0 s) :=
  ⟨⟨{ allDone with run := _ }, rfl, rfl, rfl⟩, ⟨{ allDone with run := [.unit .u2] }, allDone, rfl, rfl,
    unit_move_releases_none rfl .u0⟩⟩

theorem witness_ResetReturnsEveryUnit :
    (∃ s : State, s.run = [.host { Ports.quiet with reset := true }] ∧ s.phase .u0 = .busy) ∧
    (∃ s : State, s.run = [.host { Ports.quiet with reset := true }] ∧ UnitReset .u3 s) :=
  ⟨⟨{ allBusy with run := _ }, rfl, rfl⟩, ⟨{ State.reset with run := _ }, rfl, rfl⟩⟩

/-- All signals at once with RESET; an ACK and a START without it. -/
theorem witness_HostSignalsActInOrder :
    (∃ (s : State) (p : Ports), s.run = [.host p] ∧ p.reset = true ∧ p.cmdValid = true) ∧
    (∃ (s : State) (p : Ports), s.wasReset = true ∧ s.run = [.host p] ∧ p.reset = false ∧ p.cmdValid = true ∧
      (p.ack .u0 = true ∧ s.phase .u0 = .done) ∧ ¬ (p.ack .u1 = true ∧ s.phase .u1 = .done)) :=
  ⟨⟨{ allDone with run := [.host { Ports.quiet with reset := true, cmdValid := true }] }, _, rfl, rfl, rfl⟩,
    ⟨{ allDone with run := [.host { Ports.quiet with cmdValid := true, ack0 := true }] }, _, rfl, rfl, rfl, rfl,
      ⟨rfl, rfl⟩, by decide⟩⟩

theorem witness_StepRunsTheDecodedCommand :
    (∃ (s : State) (p : Ports), s.wasReset = true ∧ s.run = [.host p] ∧ p.cmdValid = true ∧ p.reset = false ∧
      ∀ u, p.ack u = false) ∧
    (∃ s : State, s.wasReset = true ∧ s.run = [.unit .u3]) :=
  ⟨⟨{ State.reset with run := [.host { Ports.quiet with cmdValid := true, cmd := 7 }] }, _, rfl, rfl, rfl, rfl,
    fun u => by cases u <;> rfl⟩, ⟨{ allBusy with run := _ }, rfl, rfl⟩⟩

theorem witness_PlacedCommandWordRuns :
    State.reset.wasReset = true ∧ decodeTableWord 8 0b111 = some (.b64dec true) := ⟨rfl, by decide⟩

/-- Before the first RESET: a host move without `reset`, a unit's move, and no move. -/
theorem witness_NothingRunsBeforeTheFirstReset :
    beforeReset.wasReset = false ∧ (∀ p rest, beforeReset.run = .host p :: rest → p.reset = false) ∧
    (∀ p rest, ({ beforeReset with run := [.host Ports.quiet] } : State).run = .host p :: rest → p.reset = false) :=
  ⟨rfl, nofun, by rintro p rest ⟨⟩; rfl⟩

/-! ### Invariants and progress -/

theorem witness_EveryStepKeepsTheInvariant :
    MachineInv { allAtEnd with run := [.unit .u1] } ∧
    step { allAtEnd with run := [.unit .u1] } =
      .next { allAtEnd with u1 := { toUnitRec := UnitRec.ended [0x4A, 0x0F] .ok, RLUT := none } } :=
  ⟨fun _ => ⟨.inr ⟨_, _, .inl atEnd_u0.1⟩, .inr ⟨_, _, .inl atEnd_u1.1⟩, .inr ⟨_, _, .inl atEnd_u2.1⟩,
    .inr ⟨_, _, .inl atEnd_u3.1⟩⟩, rfl⟩

theorem witness_NoFaultUnderTheInvariant : MachineInv allBusy ∧ MachineInv allDone :=
  ⟨fun _ => allBusy_inv, fun _ => allDone_inv⟩

/-- A step of U1, with all four units serving a transaction and none released. -/
theorem witness_EveryScheduleServesTheTransaction :
    ∃ s t : State, step s = .next t ∧ (∀ u, ¬ Releases u s) ∧ ServesU0 defaultB16 [0x4A, 0x0F] s.u0 ∧
      ServesU1 lowerB16 [0x34, 0x61, 0x30, 0x66] s.u1 ∧ ServesU2 defaultB64 [0x4D] s.u2 ∧
      ServesU3 defaultB64 symTQ s.u3 :=
  ⟨{ allAtEnd with run := [.unit .u1] }, _, rfl, unit_move_releases_none rfl, .inl atEnd_u0.1,
    .inl atEnd_u1.1, .inl atEnd_u2.1, .inl atEnd_u3.1⟩

theorem witness_ABusyUnitAlwaysProgresses : UnitsInv allBusy ∧ ∀ u, allBusy.phase u = .busy :=
  ⟨allBusy_inv, fun u => by cases u <;> decide +kernel⟩

theorem witness_EveryTransactionEnds : allBusy.wasReset = true ∧ UnitsInv allBusy ∧ allBusy.run = [] :=
  ⟨rfl, allBusy_inv, rfl⟩

theorem witness_OutputsOfADoneUnit :
    UnitsInv allDone ∧ (∀ u, allDone.done u = true) ∧ UnitsInv allBusy ∧ allBusy.done .u0 = false :=
  ⟨allDone_inv, fun u => by cases u <;> rfl, allBusy_inv, rfl⟩

theorem witness_StepKeepsParametersAndResetMark : step State.reset = .next State.reset := rfl

/-- Operands of the worked examples at an IDLE unit, for all four units. -/
theorem witness_MachineIsTheFunction :
    ∀ d, (atPorts [] [0x4D] symTQ).wasReset = true ∧ (∀ u, (atPorts [] [0x4D] symTQ).phase u = .idle) ∧
      EncodeOperandsFit d (atPorts [] [0x4D] symTQ) ∧ DecodeOperandsFit d (atPorts [] [0x4D] symTQ) ∧
      (atPorts [] [0x4D] symTQ).ports.inB.length + 1 ≤ 2 ∧ (atPorts [] [0x4D] symTQ).ports.inS.length / 2 + 1 ≤ 3 ∧
      ((atPorts [] [0x4D] symTQ).ports.inB.length + 2) / 3 + 1 ≤ 2 ∧
      (atPorts [] [0x4D] symTQ).ports.inS.length / 4 + 1 ≤ 2 :=
  fun d => ⟨rfl, fun u => by cases u <;> rfl, (fits_abstract _ _ _ d).1, (fits_abstract _ _ _ d).2, by decide,
    by decide, by decide, by decide⟩

end Sys2Proof.Tests
end

section
/-! PROOFS. The scope family: the length laws (R13), no success is empty (R14), and the parameters and the RESET mark
over a step (R160). -/

namespace Sys2Proof.Machine

open Sys2Proof.Safety

/-! ## Lengths of successful results (R13) -/

theorem b16enc_ok_length {bytes : List Byte} {T out : List Sym} (h : b16enc bytes T = .ok out) :
    out.length = 2 * bytes.length := by
  obtain ⟨-, -, hT, rfl⟩ := b16enc_ok_inv h
  exact b16encAll_length (lut16 T hT) bytes

theorem b16dec_ok_length {syms T : List Sym} {out : List Byte} (h : b16dec syms T = .ok out) :
    2 * out.length = syms.length := by
  obtain ⟨-, -, -, heven, hrun⟩ := b16dec_ok_inv h
  have hlen := b16decAll_length hrun
  omega

theorem b64enc_ok_length {bytes : List Byte} {T out : List Sym} (h : b64enc bytes T = .ok out) :
    out.length = 4 * ((bytes.length + 2) / 3) := by
  obtain ⟨-, -, hT, rfl⟩ := b64enc_ok_inv h
  exact b64encAll_length (lut64 T hT) (padSym T hT) bytes

theorem b64dec_ok_length {syms T : List Sym} {out : List Byte} (h : b64dec syms T = .ok out) :
    4 ∣ syms.length ∧ out.length + (padCount T syms).val = 3 * (syms.length / 4) := by
  obtain ⟨hne, -, -, hmod, -, hrun⟩ := b64dec_ok_inv h
  exact ⟨Nat.dvd_of_mod_eq_zero hmod, b64decAll_length hrun hmod hne⟩

/-- Settles O10: the length of each loop, on the inputs that pass the checks. -/
theorem lengthLaws : Obligations.LengthLaws :=
  ⟨fun _ _ _ => b16enc_ok_length, fun _ _ _ => b16dec_ok_length, fun _ _ _ => b64enc_ok_length,
    fun _ _ _ => b64dec_ok_length⟩

/-! ## A successful result is not empty (R14): a success has a non-empty input, and its length follows -/

theorem b16enc_ok_ne_nil {bytes : List Byte} {T out : List Sym} (h : b16enc bytes T = .ok out) : out ≠ [] := by
  have hin := List.length_pos_iff.mpr (b16enc_ok_inv h).1
  have hlen := b16enc_ok_length h
  exact List.ne_nil_of_length_pos (by omega)

theorem b16dec_ok_ne_nil {syms T : List Sym} {out : List Byte} (h : b16dec syms T = .ok out) : out ≠ [] := by
  have hin := List.length_pos_iff.mpr (b16dec_ok_inv h).1
  have hlen := b16dec_ok_length h
  exact List.ne_nil_of_length_pos (by omega)

theorem b64enc_ok_ne_nil {bytes : List Byte} {T out : List Sym} (h : b64enc bytes T = .ok out) : out ≠ [] := by
  have hin := List.length_pos_iff.mpr (b64enc_ok_inv h).1
  have hlen := b64enc_ok_length h
  exact List.ne_nil_of_length_pos (by omega)

/-- At least one group gives three bytes, and padding takes away at most two. -/
theorem b64dec_ok_ne_nil {syms T : List Sym} {out : List Byte} (h : b64dec syms T = .ok out) : out ≠ [] := by
  have hin := List.length_pos_iff.mpr (b64dec_ok_inv h).1
  obtain ⟨hgroups, hlen⟩ := b64dec_ok_length h
  have hpad := (padCount T syms).isLt
  exact List.ne_nil_of_length_pos (by omega)

/-- Settles O11, from the length laws. -/
theorem successIsNeverEmpty : Obligations.SuccessIsNeverEmpty :=
  ⟨fun _ _ h => b16enc_ok_ne_nil h rfl, fun _ _ h => b16dec_ok_ne_nil h rfl, fun _ _ h => b64enc_ok_ne_nil h rfl,
    fun _ _ h => b64dec_ok_ne_nil h rfl⟩

/-! ## What a step keeps (R160) -/

theorem sameAround_refl (s : State) : SameAround s s := ⟨rfl, rfl, rfl, rfl, rfl⟩

/-- A command changes unit records only. -/
theorem exec_sameAround {i : Instr} {s t : State} (h : exec i s = .next t) : SameAround s t := by
  obtain ⟨-, ⟨-, rfl⟩ | ⟨-, htaken⟩⟩ := exec_next h
  · exact sameAround_refl t
  · cases i <;> (obtain rfl : t = _ := htaken; exact sameAround_refl s)

/-- A unit action changes unit records only. -/
theorem unitAct_sameAround {u : UnitId} {s t : State} (h : unitAct u s = .next t) : SameAround s t := by
  have hput := unitAct_next h
  cases u <;> (obtain ⟨r, -, rfl⟩ := hput; exact sameAround_refl s)

/-- The parameters and the RESET mark of a state `x` on the way from `s` to `t`, when only unit records change after
it. -/
theorem params_wasReset_of_sameAround {s x t : State} (h : SameAround x t) (hparams : x.params = s.params)
    (hreset : x.wasReset = true) : t.params = s.params ∧ t.wasReset = true := by
  obtain ⟨-, -, -, hw, hp⟩ := h
  exact ⟨hp.symm.trans hparams, hw.symm.trans hreset⟩

/-- Settles O47: a step needs the RESET mark, and after the host's signals only unit records change. -/
theorem stepKeepsParametersAndResetMark : Obligations.StepKeepsParametersAndResetMark := by
  intro s t h
  obtain ⟨p, rest, -, hreset, hmove⟩ | ⟨u, rest, -, hreset, hact⟩ | ⟨-, hreset, hidle⟩ := step_cases h
  · have hparams := hostSignals_params { s with ports := p, run := rest }
    obtain ⟨-, hexec⟩ | ⟨-, rfl⟩ := hmove
    · exact params_wasReset_of_sameAround (exec_sameAround hexec) hparams hreset
    · exact ⟨hparams, hreset⟩
  · exact params_wasReset_of_sameAround (unitAct_sameAround hact) rfl hreset
  · obtain ⟨-, rfl⟩ | ⟨u, -, hact⟩ := hidle
    · exact ⟨rfl, hreset⟩
    · exact params_wasReset_of_sameAround (unitAct_sameAround hact) rfl hreset

end Sys2Proof.Machine
end

section
/-! PROOFS. The state family: the reverse lookup (R27), the frames of commands and unit actions (R20, R160), the
invariant of every step (R22, R171), and what the host reads of a unit (R35). -/

namespace Sys2Proof.Machine

open Sys2Proof.Safety

/-! ## Frames: putting a record into one unit leaves the other three -/

theorem sameUnit_put_u0 {u : UnitId} (s : State) (r : EncUnit) (hu : u ≠ .u0) : SameUnit u s { s with u0 := r } := by
  cases u with
  | u0 => exact absurd rfl hu
  | _ => rfl

theorem sameUnit_put_u1 {u : UnitId} (s : State) (r : Dec16Unit) (hu : u ≠ .u1) :
    SameUnit u s { s with u1 := r } := by
  cases u with
  | u1 => exact absurd rfl hu
  | _ => rfl

theorem sameUnit_put_u2 {u : UnitId} (s : State) (r : EncUnit) (hu : u ≠ .u2) : SameUnit u s { s with u2 := r } := by
  cases u with
  | u2 => exact absurd rfl hu
  | _ => rfl

theorem sameUnit_put_u3 {u : UnitId} (s : State) (r : Dec64Unit) (hu : u ≠ .u3) :
    SameUnit u s { s with u3 := r } := by
  cases u with
  | u3 => exact absurd rfl hu
  | _ => rfl

/-- A command leaves every unit but its own. -/
theorem exec_sameUnit {i : Instr} {s t : State} {u : UnitId} (h : exec i s = .next t) (hu : u ≠ unitOf i) :
    SameUnit u s t := by
  obtain ⟨-, ⟨-, rfl⟩ | ⟨-, htaken⟩⟩ := exec_next h
  · exact sameUnit_refl u t
  · cases i with
    | b16enc d => exact htaken ▸ sameUnit_put_u0 s _ hu
    | b16dec d => exact htaken ▸ sameUnit_put_u1 s _ hu
    | b64enc d => exact htaken ▸ sameUnit_put_u2 s _ hu
    | b64dec d => exact htaken ▸ sameUnit_put_u3 s _ hu

/-- A unit action leaves every other unit. -/
theorem unitAct_sameUnit {u v : UnitId} {s t : State} (h : unitAct u s = .next t) (hv : v ≠ u) : SameUnit v s t := by
  have hput := unitAct_next h
  cases u with
  | u0 => obtain ⟨r, -, rfl⟩ := hput; exact sameUnit_put_u0 s r hv
  | u1 => obtain ⟨r, -, rfl⟩ := hput; exact sameUnit_put_u1 s r hv
  | u2 => obtain ⟨r, -, rfl⟩ := hput; exact sameUnit_put_u2 s r hv
  | u3 => obtain ⟨r, -, rfl⟩ := hput; exact sameUnit_put_u3 s r hv

/-- Settles O25: a command is dropped, or puts one record into its own unit. -/
theorem commandFrame : Obligations.CommandFrame :=
  fun _ _ _ h => ⟨exec_sameAround h, fun _ hu => exec_sameUnit h hu⟩

/-- Settles O31: a unit action puts one record into its unit. -/
theorem unitActionFrame : Obligations.UnitActionFrame :=
  fun _ _ _ h => ⟨unitAct_sameAround h, fun _ hv => unitAct_sameUnit h hv⟩

/-! ## The invariant, unit by unit -/

/-- Unit `u`'s part of `UnitsInv` (`unitsInv_iff`): as after RESET, or serving the transaction of some operands. -/
def UnitInv (u : UnitId) (s : State) : Prop :=
  match u with
  | .u0 => s.u0 = UnitRec.idle ∨ ∃ T inp, ServesU0 T inp s.u0
  | .u1 => s.u1 = DecUnit.idle ∨ ∃ T inp, ServesU1 T inp s.u1
  | .u2 => s.u2 = UnitRec.idle ∨ ∃ T inp, ServesU2 T inp s.u2
  | .u3 => s.u3 = Dec64Unit.idle ∨ ∃ T inp, ServesU3 T inp s.u3

theorem unitsInv_iff {s : State} : UnitsInv s ↔ ∀ u, UnitInv u s := by
  constructor
  · rintro ⟨h0, h1, h2, h3⟩ u
    cases u with
    | u0 => exact h0
    | u1 => exact h1
    | u2 => exact h2
    | u3 => exact h3
  · exact fun h => ⟨h .u0, h .u1, h .u2, h .u3⟩

/-- A unit's invariant reads that unit's record only. -/
theorem unitInv_of_sameUnit {u : UnitId} {s t : State} (h : SameUnit u s t) (hs : UnitInv u s) : UnitInv u t := by
  cases u <;> (simp only [SameUnit, UnitInv] at h hs ⊢; rwa [← h])

theorem unitInv_of_unitReset {u : UnitId} {s : State} (h : UnitReset u s) : UnitInv u s := by
  cases u <;> exact .inl h

/-- RESET and ACK: after the host's signals a unit is reset or as before; before the first RESET there is no
invariant to start from, and only a move that asserts `reset` counts. -/
theorem hostSignals_unitsInv {s : State} (hs : MachineInv s) (hw : (hostSignals s).wasReset = true) :
    UnitsInv (hostSignals s) := by
  rw [unitsInv_iff]
  intro u
  cases hreset : s.ports.reset with
  | true => exact unitInv_of_unitReset (hostSignals_reset hreset u)
  | false =>
    have hbefore : UnitsInv s := hs (by simpa [hreset] using hw)
    obtain ⟨hacked, hkept⟩ := hostSignals_ack hreset u
    by_cases hack : s.ports.ack u = true ∧ s.phase u = .done
    · exact unitInv_of_unitReset (hacked hack)
    · exact unitInv_of_sameUnit (hkept hack) (unitsInv_iff.mp hbefore u)

/-- START: the command's own unit drops it or serves its operands. -/
theorem exec_unitInv {i : Instr} {s t : State} (hs : UnitInv (unitOf i) s) (h : exec i s = .next t) :
    UnitInv (unitOf i) t := by
  obtain ⟨-, ⟨-, rfl⟩ | ⟨-, htaken⟩⟩ := exec_next h
  · exact hs
  · cases i with
    | b16enc d => exact htaken ▸ .inr ⟨_, _, startU0_serves _ _⟩
    | b16dec d => exact htaken ▸ .inr ⟨_, _, startU1_serves _ _⟩
    | b64enc d => exact htaken ▸ .inr ⟨_, _, startU2_serves _ _⟩
    | b64dec d => exact htaken ▸ .inr ⟨_, _, startU3_serves _ _⟩

/-- An action that leaves the idle record as it is, and keeps a record serving its transaction, answers and keeps a
unit's invariant. -/
theorem act_answers_and_keeps {ρ α : Type} (act : ρ → Except Fault ρ) (idle : ρ)
    (Serves : List Sym → List α → ρ → Prop) {r : ρ} (hidle : act idle = .ok idle)
    (hserves : ∀ {T inp r}, Serves T inp r → ∃ r', act r = .ok r' ∧ Serves T inp r')
    (hr : r = idle ∨ ∃ T inp, Serves T inp r) :
    ∃ r', act r = .ok r' ∧ (r' = idle ∨ ∃ T inp, Serves T inp r') := by
  obtain rfl | ⟨T, inp, h⟩ := hr
  · exact ⟨r, hidle, .inl rfl⟩
  · obtain ⟨r', hact, h'⟩ := hserves h
    exact ⟨r', hact, .inr ⟨T, inp, h'⟩⟩

/-- STEP and FINISH: under its invariant a unit's action answers, and the unit goes on serving its transaction, or is
IDLE and has no action. -/
theorem unitAct_unitInv {u : UnitId} {s : State} (hs : UnitInv u s) :
    ∃ t, unitAct u s = .next t ∧ UnitInv u t := by
  cases u with
  | u0 =>
    obtain ⟨r, hact, hr⟩ := act_answers_and_keeps actU0 UnitRec.idle ServesU0 rfl actU0_keeps hs
    exact ⟨{ s with u0 := r }, by simp [unitAct, hact], hr⟩
  | u1 =>
    obtain ⟨r, hact, hr⟩ := act_answers_and_keeps actU1 DecUnit.idle ServesU1 rfl actU1_keeps hs
    exact ⟨{ s with u1 := r }, by simp [unitAct, hact], hr⟩
  | u2 =>
    obtain ⟨r, hact, hr⟩ := act_answers_and_keeps actU2 UnitRec.idle ServesU2 rfl actU2_keeps hs
    exact ⟨{ s with u2 := r }, by simp [unitAct, hact], hr⟩
  | u3 =>
    obtain ⟨r, hact, hr⟩ := act_answers_and_keeps actU3 Dec64Unit.idle ServesU3 rfl actU3_keeps hs
    exact ⟨{ s with u3 := r }, by simp [unitAct, hact], hr⟩

/-- The invariant of all units, when one unit may have changed and keeps its own. -/
theorem unitsInv_of_frame {u : UnitId} {s t : State} (hs : UnitsInv s) (hframe : ∀ v, v ≠ u → SameUnit v s t)
    (hu : UnitInv u t) : UnitsInv t := by
  rw [unitsInv_iff] at hs ⊢
  intro v
  by_cases hv : v = u
  · exact hv ▸ hu
  · exact unitInv_of_sameUnit (hframe v hv) (hs v)

theorem exec_unitsInv {i : Instr} {s t : State} (hs : UnitsInv s) (h : exec i s = .next t) : UnitsInv t :=
  unitsInv_of_frame hs (fun _ => exec_sameUnit h) (exec_unitInv (unitsInv_iff.mp hs _) h)

theorem unitAct_unitsInv {u : UnitId} {s t : State} (hs : UnitsInv s) (h : unitAct u s = .next t) : UnitsInv t := by
  obtain ⟨t', hact, hinv⟩ := unitAct_unitInv (unitsInv_iff.mp hs u)
  obtain rfl : t' = t := by rw [hact] at h; cases h; rfl
  exact unitsInv_of_frame hs (fun _ => unitAct_sameUnit h) hinv

/-- Settles O41: the host's signals, a START and a unit action each keep the invariant of the units, and a step is made
of these. -/
theorem everyStepKeepsTheInvariant : Obligations.EveryStepKeepsTheInvariant := by
  intro s t hs h _
  obtain ⟨p, rest, -, hreset, hmove⟩ | ⟨u, rest, -, hreset, hact⟩ | ⟨-, hreset, hidle⟩ := step_cases h
  · have hsignals : UnitsInv (hostSignals { s with ports := p, run := rest }) := hostSignals_unitsInv hs hreset
    obtain ⟨-, hexec⟩ | ⟨-, rfl⟩ := hmove
    · exact exec_unitsInv hsignals hexec
    · exact hsignals
  · exact unitAct_unitsInv (s := { s with run := rest }) (hs hreset) hact
  · obtain ⟨-, rfl⟩ | ⟨u, -, hact⟩ := hidle
    · exact hs hreset
    · exact unitAct_unitsInv (s := { s with turns := s.turns + 1 }) (hs hreset) hact

/-! ## No fault (R29) -/

/-- No command faults: START reads no unit's working field. -/
theorem exec_ne_fault (i : Instr) (s : State) (f : Fault) : exec i s ≠ .fault f := by
  cases i <;> exact startGate_no_fault _ _ _ _ f

theorem unitAct_ne_fault {s : State} (hs : UnitsInv s) (u : UnitId) (f : Fault) : unitAct u s ≠ .fault f := by
  obtain ⟨t, hact, -⟩ := unitAct_unitInv (unitsInv_iff.mp hs u)
  simp [hact]

/-- A step whose next move is a unit's. -/
theorem step_unit {s : State} {u : UnitId} {rest : List Move} (hrun : s.run = .unit u :: rest) :
    step s = if s.wasReset = false then .refused .beforeReset else unitAct u { s with run := rest } := by
  simp [step, takeMove, hrun, unitMove]

/-- A step with no move listed. -/
theorem step_nil {s : State} (hrun : s.run = []) :
    step s = if s.wasReset = false then .refused .beforeReset else drain s := by
  simp [step, takeMove, hrun, idleMove]

theorem drain_ne_fault {s : State} (hs : UnitsInv s) (f : Fault) : drain s ≠ .fault f := by
  unfold drain
  cases freeUnit s with
  | none => simp
  | some u => exact unitAct_ne_fault (s := { s with turns := s.turns + 1 }) hs u f

/-- Settles O42: a START faults in no state, a unit action in none that meets the invariant. -/
theorem noFaultUnderTheInvariant : Obligations.NoFaultUnderTheInvariant := by
  intro s hs f
  match hrun : s.run with
  | .host p :: rest =>
    rw [step_host hrun]
    split_ifs
    · simp
    · exact exec_ne_fault _ _ f
    · simp
  | .unit u :: rest =>
    rw [step_unit hrun]
    split_ifs with hreset
    · simp
    · exact unitAct_ne_fault (s := { s with run := rest }) (hs (by simpa using hreset)) u f
  | [] =>
    rw [step_nil hrun]
    split_ifs with hreset
    · simp
    · exact drain_ne_fault (hs (by simpa using hreset)) f

/-! ## What the host reads of a unit (R28, R35) -/

theorem reasonCode_ne_seven (r : Reason) : reasonCode r ≠ 7 := by cases r <;> decide

theorem reasonCode_eq_zero {r : Reason} : reasonCode r = 0#3 ↔ r = .ok := by cases r <;> decide

/-- No operation fails with the code of success. -/
theorem b16enc_ne_error_ok (bytes : List Byte) (T : List Sym) : b16enc bytes T ≠ .error .ok := by
  obtain ⟨-, h⟩ | ⟨-, -, h⟩ | ⟨-, -, -, h⟩ | ⟨-, -, _, h⟩ := b16enc_cases bytes T <;> simp [h]

theorem b64enc_ne_error_ok (bytes : List Byte) (T : List Sym) : b64enc bytes T ≠ .error .ok := by
  obtain ⟨-, h⟩ | ⟨-, -, h⟩ | ⟨-, -, -, h⟩ | ⟨-, -, _, h⟩ := b64enc_cases bytes T <;> simp [h]

theorem b16dec_ne_error_ok (syms T : List Sym) : b16dec syms T ≠ .error .ok := by
  obtain ⟨-, h⟩ | ⟨-, -, h⟩ | ⟨-, -, -, h⟩ | ⟨-, -, -, -, h⟩ | ⟨-, -, -, -, h⟩ := b16dec_cases syms T
  case inr.inr.inr.inr => exact fun hok => nomatch b16decAll_error (h.symm.trans hok)
  all_goals simp [h]

theorem b64dec_ne_error_ok (syms T : List Sym) : b64dec syms T ≠ .error .ok := by
  obtain ⟨-, h⟩ | ⟨-, -, h⟩ | ⟨-, -, -, h⟩ | ⟨-, -, -, -, h⟩ | ⟨-, -, -, -, -, h⟩ | ⟨-, -, -, -, -, h⟩ :=
    b64dec_cases syms T
  case inr.inr.inr.inr.inr => exact fun hok => nomatch b64decAll_error (h.symm.trans hok)
  all_goals simp [h]

/-- The record is what an outcome leaves that is no empty success (R14) and no failure with code 0 (R182). -/
def SettledProperly {α β : Type} (r : UnitRec α β) : Prop :=
  ∃ x : Except Reason (List β), x ≠ .ok [] ∧ x ≠ .error .ok ∧ r = settled x

theorem servesU0_not_done_or_settled {T : List Sym} {inp : List Byte} {r : EncUnit}
    (h : ServesU0 T inp r) : r.phase ≠ .done ∨ SettledProperly r :=
  h.imp (fun h => by simp [busyU0_phase h]) fun h =>
    ⟨b16enc inp T, fun he => b16enc_ok_ne_nil he rfl, b16enc_ne_error_ok inp T, h⟩

theorem servesU1_not_done_or_settled {T inp : List Sym} {r : Dec16Unit}
    (h : ServesU1 T inp r) : r.phase ≠ .done ∨ SettledProperly r.toUnitRec :=
  h.imp (fun h => by simp [busyU1_phase h]) fun h =>
    ⟨b16dec inp T, fun he => b16dec_ok_ne_nil he rfl, b16dec_ne_error_ok inp T, congrArg (·.toUnitRec) h⟩

theorem servesU2_not_done_or_settled {T : List Sym} {inp : List Byte} {r : EncUnit}
    (h : ServesU2 T inp r) : r.phase ≠ .done ∨ SettledProperly r :=
  h.imp (fun h => by simp [busyU2_phase h]) fun h =>
    ⟨b64enc inp T, fun he => b64enc_ok_ne_nil he rfl, b64enc_ne_error_ok inp T, h⟩

theorem servesU3_not_done_or_settled {T inp : List Sym} {r : Dec64Unit}
    (h : ServesU3 T inp r) : r.phase ≠ .done ∨ SettledProperly r.toUnitRec :=
  h.imp (fun h => by simp [busyU3_phase h]) fun h =>
    ⟨b64dec inp T, fun he => b64dec_ok_ne_nil he rfl, b64dec_ne_error_ok inp T, congrArg (·.toUnitRec) h⟩

/-- R28, R35 for one record: `fail`, the length of `res`, and `reason`. -/
def OutputsAgree {α β : Type} (r : UnitRec α β) : Prop :=
  (r.isDone = true → ∃ n c, r.resOut.map List.length = some n ∧ r.reasonOut = some c ∧ c ≠ 7 ∧
    (r.failOut = true ↔ n = 0) ∧ (r.failOut = true ↔ c ≠ 0)) ∧
  (r.isDone = false → r.failOut = false ∧ r.resOut.map List.length = none ∧ r.reasonOut = none)

/-- Outside DONE nothing is shown, whatever the record holds. -/
theorem outputs_of_not_done {α β : Type} {r : UnitRec α β} (h : r.isDone = false) :
    r.failOut = false ∧ r.resOut.map List.length = none ∧ r.reasonOut = none := by
  simp [UnitRec.failOut, UnitRec.resOut, UnitRec.reasonOut, h]

theorem outputs_of_ended {α β : Type} (res : List β) (rsn : Reason) :
    (UnitRec.ended res rsn : UnitRec α β).failOut = res.isEmpty ∧
    (UnitRec.ended res rsn : UnitRec α β).resOut = some res ∧
    (UnitRec.ended res rsn : UnitRec α β).reasonOut = some (reasonCode rsn) := ⟨rfl, rfl, rfl⟩

/-- A record settled properly shows a failure exactly by an empty result and by a reason. -/
theorem outputs_of_settledProperly {α β : Type} {r : UnitRec α β} (h : SettledProperly r) :
    ∃ n c, r.resOut.map List.length = some n ∧ r.reasonOut = some c ∧ c ≠ 7 ∧
      (r.failOut = true ↔ n = 0) ∧ (r.failOut = true ↔ c ≠ 0) := by
  obtain ⟨x, hok, herr, rfl⟩ := h
  cases x with
  | ok out =>
    obtain ⟨hfail, hres, hreason⟩ := outputs_of_ended (α := α) out .ok
    have hne : out ≠ [] := fun he => hok (he ▸ rfl)
    exact ⟨out.length, 0, by simp [settled, hres], hreason, by decide, by simp [settled, hfail],
      by simp [settled, hfail, hne]⟩
  | error rsn =>
    obtain ⟨hfail, hres, hreason⟩ := outputs_of_ended (α := α) ([] : List β) rsn
    have hne : rsn ≠ .ok := fun he => herr (he ▸ rfl)
    exact ⟨0, reasonCode rsn, by simp [settled, hres], hreason, reasonCode_ne_seven rsn, by simp [settled, hfail],
      by simp [settled, hfail, reasonCode_eq_zero, hne]⟩

theorem outputsAgree_of_not_done_or_settled {α β : Type} {r : UnitRec α β}
    (h : r.phase ≠ .done ∨ SettledProperly r) : OutputsAgree r :=
  ⟨fun hdone => outputs_of_settledProperly (h.resolve_left (not_not_intro (by simpa [UnitRec.isDone] using hdone))),
    outputs_of_not_done⟩

/-- Settles O46: an IDLE or BUSY unit shows nothing, and a DONE one is settled properly. -/
theorem outputsOfADoneUnit : Obligations.OutputsOfADoneUnit := by
  intro s u hs
  have hu := unitsInv_iff.mp hs u
  cases u with
  | u0 =>
    exact outputsAgree_of_not_done_or_settled (r := s.u0) <|
      hu.elim (fun h => .inl (by simp [h])) fun ⟨_, _, h⟩ => servesU0_not_done_or_settled h
  | u1 =>
    exact outputsAgree_of_not_done_or_settled (r := s.u1.toUnitRec) <|
      hu.elim (fun h => .inl (by simp [h])) fun ⟨_, _, h⟩ => servesU1_not_done_or_settled h
  | u2 =>
    exact outputsAgree_of_not_done_or_settled (r := s.u2) <|
      hu.elim (fun h => .inl (by simp [h])) fun ⟨_, _, h⟩ => servesU2_not_done_or_settled h
  | u3 =>
    exact outputsAgree_of_not_done_or_settled (r := s.u3.toUnitRec) <|
      hu.elim (fun h => .inl (by simp [h])) fun ⟨_, _, h⟩ => servesU3_not_done_or_settled h

/-! ## The reset state (R34) -/

theorem nothingValid_idle {α β : Type} : NothingValid (UnitRec.idle : UnitRec α β) :=
  ⟨rfl, rfl, rfl, rfl, rfl, rfl, rfl⟩

/-- Settles O39: every unit's record is the idle one. -/
theorem resetStateAsTheHostSeesIt : Obligations.ResetStateAsTheHostSeesIt := by
  refine ⟨nothingValid_idle, nothingValid_idle, ⟨nothingValid_idle, rfl⟩, ⟨nothingValid_idle, rfl, rfl⟩, fun u => ?_⟩
  cases u <;> exact ⟨rfl, rfl, rfl, rfl, rfl⟩

/-- Settles O40: every unit is as after RESET. -/
theorem resetMeetsTheInvariant : Obligations.ResetMeetsTheInvariant :=
  fun _ => unitsInv_iff.mpr fun u => unitInv_of_unitReset (sameUnit_refl u State.reset)

/-! ## The reverse lookup (R27) -/

/-- Without duplicates the first index of an entry is its only one. -/
theorem rlut_eq_some {T : List Sym} (hT : distinct T = true) {x : Sym} {i : Nat} :
    rlut T x = some i ↔ T[i]? = some x := by
  have hnodup := (distinct_iff_nodup T).mp hT
  rw [rlut, List.findIdx?_eq_some_iff_getElem, List.getElem?_eq_some_iff]
  refine exists_congr fun hi => ?_
  constructor
  · rintro ⟨hx, -⟩
    simpa using hx
  · rintro rfl
    refine ⟨by simp, fun j hj => ?_⟩
    have hne : T[j] ≠ T[i] := fun he => by
      have := (hnodup.getElem_inj_iff).mp he
      omega
    simpa using hne

theorem rlut_eq_none {T : List Sym} {x : Sym} : rlut T x = none ↔ x ∉ T := by
  simp only [rlut, List.findIdx?_eq_none_iff, beq_eq_false_iff_ne]
  exact ⟨fun h hx => h x hx rfl, fun h t ht he => h (he ▸ ht)⟩

/-- R140: the sentinel is the value of index 64. -/
theorem sym2val_eq_pad {T : List Sym} {x : Sym} : sym2val T x = some .pad ↔ rlut T x = some 64 := by
  cases h : rlut T x with
  | none => simp [sym2val, h]
  | some i =>
    by_cases hi : i = 64 <;> simp [sym2val, h, hi]

/-- R140: a sextet is the value of its own index, of the 64 below the sentinel's. -/
theorem sym2val_eq_data {T : List Sym} (hlen : T.length = 65) {x : Sym} {v : Sext} :
    sym2val T x = some (.data v) ↔ rlut T x = some v.toNat := by
  have hv := v.isLt
  cases h : rlut T x with
  | none => simp [sym2val, h]
  | some i =>
    have hlt := rlut_lt h
    by_cases hi : i = 64
    · have hne : 64 ≠ v.toNat := by omega
      simp [sym2val, h, hi, hne]
    · have hindex : BitVec.ofNat 6 i = v ↔ i = v.toNat := by
        rw [← BitVec.toNat_inj, BitVec.toNat_ofNat, Nat.mod_eq_of_lt (by omega)]
      simp [sym2val, h, hi, hindex]

/-- Settles O5: the lookups of R110 and R140 are the reverse lookup with its index read as a value. -/
theorem reverseLookupIsTheUniqueIndex : Obligations.ReverseLookupIsTheUniqueIndex := fun _ hT _ =>
  ⟨fun _ => rlut_eq_some hT, rlut_eq_none, fun hlen =>
    ⟨sym2val_eq_pad.trans (rlut_eq_some hT), fun _ => (sym2val_eq_data hlen).trans (rlut_eq_some hT)⟩⟩

end Sys2Proof.Machine
end

section
/-! PROOFS. The encoding family: the command words (R70, R71), the valid tables (R74 to R77), the numeric views of a
base64 group (R80), and the run of a placed command word (R35). -/

namespace Sys2Proof.Machine

open Sys2Proof.Safety

/-! ## The default tables: runs of consecutive code points that do not meet (R75 to R77) -/

theorem defaultB16_nodup : defaultB16.Nodup := by
  simp only [defaultB16, List.nodup_append, List.mem_range'_1]
  refine ⟨List.nodup_range', List.nodup_range', ?_⟩
  rintro x hx _ hx' rfl
  omega

theorem defaultB64_nodup : defaultB64.Nodup := by
  simp only [defaultB64, List.nodup_append, List.mem_append, List.mem_range'_1]
  refine ⟨⟨⟨List.nodup_range', List.nodup_range', ?upperLower⟩, List.nodup_range', ?lettersDigits⟩, by decide, ?signs⟩
  case upperLower | lettersDigits =>
    rintro x hx _ hx' rfl
    omega
  case signs =>
    rintro x hx _ hx' rfl
    obtain rfl | rfl | rfl : x = 0x2B ∨ x = 0x2F ∨ x = 0x3D := by simpa using hx'
    all_goals omega

theorem defaultB16_valid : ValidTable 16 defaultB16 :=
  (validTable_iff 16 _).mpr ⟨rfl, (distinct_iff_nodup _).mpr defaultB16_nodup⟩

theorem defaultB64_valid : ValidTable 65 defaultB64 :=
  (validTable_iff 65 _).mpr ⟨rfl, (distinct_iff_nodup _).mpr defaultB64_nodup⟩

/-! ## Success and the table check (R74) -/

theorem b16enc_succeeds_iff {bytes : List Byte} {T : List Sym} (hne : bytes ≠ []) :
    (∃ out, b16enc bytes T = .ok out) ↔ ValidTable 16 T := by
  rw [validTable_iff]
  constructor
  · rintro ⟨out, h⟩
    obtain ⟨-, hdistinct, hlen, -⟩ := b16enc_ok_inv h
    exact ⟨hlen, hdistinct⟩
  · rintro ⟨hlen, hdistinct⟩
    exact ⟨_, b16enc_ok hlen hdistinct hne⟩

theorem b64enc_succeeds_iff {bytes : List Byte} {T : List Sym} (hne : bytes ≠ []) :
    (∃ out, b64enc bytes T = .ok out) ↔ ValidTable 65 T := by
  rw [validTable_iff]
  constructor
  · rintro ⟨out, h⟩
    obtain ⟨-, hdistinct, hlen, -⟩ := b64enc_ok_inv h
    exact ⟨hlen, hdistinct⟩
  · rintro ⟨hlen, hdistinct⟩
    exact ⟨_, b64enc_ok hlen hdistinct hne⟩

theorem b16dec_ok_valid {syms T : List Sym} {out : List Byte} (h : b16dec syms T = .ok out) : ValidTable 16 T := by
  obtain ⟨-, hlen, hdistinct, -⟩ := b16dec_ok_inv h
  exact (validTable_iff 16 T).mpr ⟨hlen, hdistinct⟩

theorem b64dec_ok_valid {syms T : List Sym} {out : List Byte} (h : b64dec syms T = .ok out) : ValidTable 65 T := by
  obtain ⟨-, hlen, hdistinct, -⟩ := b64dec_ok_inv h
  exact (validTable_iff 65 T).mpr ⟨hlen, hdistinct⟩

/-- Settles O4: the checks on length and distinctness are `ValidTable`, and an encoder has no other on its table. -/
theorem tableCheckIsPairwiseDistinctness : Obligations.TableCheckIsPairwiseDistinctness :=
  ⟨fun _ _ hne => b16enc_succeeds_iff hne, fun _ _ hne => b64enc_succeeds_iff hne, fun _ _ _ h => b16dec_ok_valid h,
    fun _ _ _ h => b64dec_ok_valid h⟩

/-! ## Failure on a valid table -/

/-- On a valid table B16ENC succeeds on every input but the empty one. -/
theorem b16enc_error_of_valid {bytes : List Byte} {T : List Sym} {r : Reason} (hT : ValidTable 16 T)
    (h : b16enc bytes T = .error r) : r = .emptyInput := by
  by_cases hb : bytes = []
  · subst hb
    exact (Except.error.inj h).symm
  · obtain ⟨out, hout⟩ := (b16enc_succeeds_iff hb).mpr hT
    rw [hout] at h
    cases h

/-- On a valid table B64ENC succeeds on every input but the empty one. -/
theorem b64enc_error_of_valid {bytes : List Byte} {T : List Sym} {r : Reason} (hT : ValidTable 65 T)
    (h : b64enc bytes T = .error r) : r = .emptyInput := by
  by_cases hb : bytes = []
  · subst hb
    exact (Except.error.inj h).symm
  · obtain ⟨out, hout⟩ := (b64enc_succeeds_iff hb).mpr hT
    rw [hout] at h
    cases h

/-- On a valid table what B16DEC can fail on is its input: the length of it, or a symbol of it. -/
theorem b16dec_error_of_valid {syms T : List Sym} {r : Reason} (hT : ValidTable 16 T)
    (h : b16dec syms T = .error r) : r = .emptyInput ∨ r = .inputLength ∨ r = .unknownSymbol := by
  obtain ⟨hlen, hdistinct⟩ := (validTable_iff 16 T).mp hT
  obtain ⟨-, e⟩ | ⟨-, hlen', -⟩ | ⟨-, -, hdup, -⟩ | ⟨-, -, -, -, e⟩ | ⟨-, -, -, -, e⟩ := b16dec_cases syms T
  · exact .inl (Except.error.inj (h.symm.trans e))
  · exact absurd hlen hlen'
  · simp [hdistinct] at hdup
  · exact .inr (.inl (Except.error.inj (h.symm.trans e)))
  · exact .inr (.inr (b16decAll_error (e.symm.trans h)))

/-- On a valid table what B64DEC can fail on is its input: the length, the padding, or a symbol of it. -/
theorem b64dec_error_of_valid {syms T : List Sym} {r : Reason} (hT : ValidTable 65 T)
    (h : b64dec syms T = .error r) :
    r = .emptyInput ∨ r = .inputLength ∨ r = .padding ∨ r = .unknownSymbol := by
  obtain ⟨hlen, hdistinct⟩ := (validTable_iff 65 T).mp hT
  obtain ⟨-, e⟩ | ⟨-, hlen', -⟩ | ⟨-, -, hdup, -⟩ | ⟨-, -, -, -, e⟩ | ⟨-, -, -, -, -, e⟩ | ⟨-, -, -, -, -, e⟩ :=
    b64dec_cases syms T
  · exact .inl (Except.error.inj (h.symm.trans e))
  · exact absurd hlen hlen'
  · simp [hdistinct] at hdup
  · exact .inr (.inl (Except.error.inj (h.symm.trans e)))
  · exact .inr (.inr (.inl (Except.error.inj (h.symm.trans e))))
  · exact .inr (.inr (.inr (b64decAll_error (e.symm.trans h))))

/-- Settles O3: the default tables are valid, and no operation fails on a valid table for the table's sake. -/
theorem defaultTablesAreValid : Obligations.DefaultTablesAreValid := by
  refine ⟨defaultB16_valid, defaultB64_valid, fun _ _ => b16enc_error_of_valid defaultB16_valid, fun syms r h => ?_,
    fun _ _ => b64enc_error_of_valid defaultB64_valid, fun syms r h => ?_⟩
  · obtain rfl | rfl | rfl := b16dec_error_of_valid defaultB16_valid h <;> decide
  · obtain rfl | rfl | rfl | rfl := b64dec_error_of_valid defaultB64_valid h <;> decide

/-! ## The views of a 24-bit group value (R80): slices of the packed number -/

theorem group3to4_toNat {b0 b1 b2 : Byte} {v0 v1 v2 v3 : Sext} (h : group3to4 b0 b1 b2 = (v0, v1, v2, v3)) :
    let w := b0.toNat * 2 ^ 16 + b1.toNat * 2 ^ 8 + b2.toNat
    v0.toNat = w / 2 ^ 18 ∧ v1.toNat = w / 2 ^ 12 % 64 ∧ v2.toNat = w / 2 ^ 6 % 64 ∧ v3.toNat = w % 64 := by
  have htop := (packBytes b0 b1 b2).isLt
  cases h
  simp only [sextAt_toNat, packBytes_toNat, pow_zero, Nat.div_one, and_true] at htop ⊢
  exact Nat.mod_eq_of_lt (by omega)

theorem ungroup4to3_toNat {v0 v1 v2 v3 : Sext} {b0 b1 b2 : Byte} (h : ungroup4to3 v0 v1 v2 v3 = (b0, b1, b2)) :
    let w := v0.toNat * 2 ^ 18 + v1.toNat * 2 ^ 12 + v2.toNat * 2 ^ 6 + v3.toNat
    b0.toNat = w / 2 ^ 16 ∧ b1.toNat = w / 2 ^ 8 % 256 ∧ b2.toNat = w % 256 := by
  have htop := (packSexts v0 v1 v2 v3).isLt
  cases h
  simp only [byteAt_toNat, packSexts_toNat, pow_zero, Nat.div_one, and_true] at htop ⊢
  exact Nat.mod_eq_of_lt (by omega)

/-- Settles O7: a field is a slice of the packed number, and the top one needs no remainder in 24 bits. -/
theorem groupViewsAsNumbers : Obligations.GroupViewsAsNumbers :=
  ⟨fun _ _ _ _ _ _ _ => group3to4_toNat, fun _ _ _ _ _ _ _ => ungroup4to3_toNat⟩

/-! ## Command words (R70, R71, R73) -/

theorem decodeWord_of_lt {w : Nat} (h : w < 8) : decodeWord w = .ok (decodeCmd (BitVec.ofNat 3 w)) := if_pos h

theorem decodeWord_of_le {w : Nat} (h : 8 ≤ w) : decodeWord w = .error .widerThanThreeBits := if_neg (by omega)

theorem decodeTableWord_eq_some {nbits w : Nat} {i : Instr} :
    decodeTableWord nbits w = some i ↔ w < 8 ∧ decodeCmd (BitVec.ofNat 3 w) = i := by
  by_cases h : w < 8
  · simp [decodeTableWord, decodeWord_of_lt h, h]
  · simp [decodeTableWord, decodeWord_of_le (Nat.le_of_not_lt h), h]

/-- R71: the codec and the direction select the constructor, `dflt` is its field. -/
theorem decodeCmd_encode (i : Instr) : decodeCmd (encode i) = i := by
  cases i with
  | b16enc d | b16dec d | b64enc d | b64dec d => cases d <;> rfl

theorem encode_decodeCmd (c : CmdWord) : encode (decodeCmd c) = c := by revert c; decide

theorem wellFormed_all (i : Instr) : i.wellFormed = true := by cases i <;> rfl

/-- Settles O1: the decoder evaluated on each of the eight words. -/
theorem commandWordsDecodeAsTabled : Obligations.CommandWordsDecodeAsTabled :=
  ⟨rfl, rfl, rfl, rfl, rfl, rfl, rfl, rfl⟩

/-- Settles O2: on the eight words decoder and encoder are inverse to each other. -/
theorem encodeAndDecodeAgree : Obligations.EncodeAndDecodeAgree := by
  refine ⟨fun i _ => ?_, fun w hw => ?_, fun w hw => decodeWord_of_le hw⟩
  · rw [decodeWord_of_lt (encode i).isLt, BitVec.ofNat_toNat, BitVec.setWidth_eq, decodeCmd_encode]
  · refine ⟨_, decodeWord_of_lt hw, wellFormed_all _, ?_⟩
    rw [encode_decodeCmd, BitVec.toNat_ofNat, Nat.mod_eq_of_lt hw]

/-! ## A placed command word (R35, R70) -/

/-- A host move that asserts neither `reset` nor an `ack` changes no state by its signals. -/
theorem hostSignals_presenting (s : State) (p : Ports) (w : Nat) :
    hostSignals { s with ports := presenting p w } = { s with ports := presenting p w } := by
  simp [hostSignals, ackAll]

/-- Settles O37: the placed move presents the word with `cmd_valid` and no other signal. -/
theorem placedCommandWordRuns : Obligations.PlacedCommandWordRuns := by
  intro s nbits w i hreset hdecode
  obtain ⟨hw, rfl⟩ := decodeTableWord_eq_some.mp hdecode
  have hrun : (s.withFetchWord nbits w).run = .host (presenting s.ports w) :: s.run := rfl
  have hsignals : hostSignals { s.withFetchWord nbits w with ports := presenting s.ports w, run := s.run } =
      { s with ports := presenting s.ports w } := hostSignals_presenting s s.ports w
  have hmark : (s.withFetchWord nbits w).wasReset = true := hreset
  rw [step_host hrun, hsignals, hmark]
  simp [hw]

end Sys2Proof.Machine
end

section
/-! PROOFS. The B16ENC family: the positions of the output (R103), the granule step of U0 (R102), and the machine's run
against the transaction function (R103 (f)). -/

namespace Sys2Proof.Machine

open Sys2Proof.Safety

/-! ## The two symbols of a byte and their positions (R101, R103) -/

/-- R101: the high nibble's read port gives entry `b / 16`. -/
theorem lut16_hiNib (T : List Sym) (h : T.length = 16) (b : Byte) :
    T[b.toNat / 16]? = some (lut16 T h (hiNib b)) := by
  rw [← hiNib_toNat, lut16_spec]

/-- R101: the low nibble's read port gives entry `b mod 16`. -/
theorem lut16_loNib (T : List Sym) (h : T.length = 16) (b : Byte) :
    T[b.toNat % 16]? = some (lut16 T h (loNib b)) := by
  rw [← loNib_toNat, lut16_spec]

theorem lut16_mem (T : List Sym) (h : T.length = 16) (v : Nib) : lut16 T h v ∈ T :=
  List.mem_of_getElem? (lut16_spec T h v)

theorem b16encAll_cons (sym : Nib → Sym) (b : Byte) (bs : List Byte) :
    b16encAll sym (b :: bs) = sym (hiNib b) :: sym (loNib b) :: b16encAll sym bs := rfl

/-- Byte `i` gives the symbols at positions `2i` and `2i + 1`. -/
theorem b16encAll_getElem? (sym : Nib → Sym) {bytes : List Byte} {i : Nat} {b : Byte} (hb : bytes[i]? = some b) :
    (b16encAll sym bytes)[2 * i]? = some (sym (hiNib b)) ∧
      (b16encAll sym bytes)[2 * i + 1]? = some (sym (loNib b)) := by
  induction bytes generalizing i with
  | nil => simp at hb
  | cons b' bs ih =>
    rw [b16encAll_cons]
    cases i with
    | zero =>
      obtain rfl : b' = b := by simpa using hb
      exact ⟨rfl, rfl⟩
    | succ i =>
      obtain ⟨hhi, hlo⟩ := ih (i := i) (by simpa using hb)
      exact ⟨hhi, hlo⟩

/-- Every output symbol was read from a port. -/
theorem mem_b16encAll {sym : Nib → Sym} {bytes : List Byte} {x : Sym} (hx : x ∈ b16encAll sym bytes) :
    ∃ v, x = sym v := by
  obtain ⟨b, -, hxb⟩ := List.mem_flatMap.mp hx
  obtain rfl | rfl : x = sym (hiNib b) ∨ x = sym (loNib b) := by simpa [b16encByte] using hxb
  · exact ⟨hiNib b, rfl⟩
  · exact ⟨loNib b, rfl⟩

/-- Settles O12: the positions of the loop's output, its symbols being entries of the table. -/
theorem base16EncodePositions : Obligations.Base16EncodePositions := by
  intro bytes T out h
  obtain ⟨-, -, hT, rfl⟩ := b16enc_ok_inv h
  constructor
  · intro i b hb
    rw [lut16_hiNib T hT, lut16_loNib T hT]
    exact b16encAll_getElem? (lut16 T hT) hb
  · intro x hx
    obtain ⟨v, rfl⟩ := mem_b16encAll hx
    exact lut16_mem T hT v

/-! ## The unit action of U0 on a state (R102, R160) -/

theorem unitAct_u0 {s : State} {r : EncUnit} (h : actU0 s.u0 = .ok r) : unitAct .u0 s = .next { s with u0 := r } := by
  simp [unitAct, h]

/-- Settles O26: with a granule left the action is the granule step on one byte, with none left it is FINISH. -/
theorem granuleOfB16enc : Obligations.GranuleOfB16enc := by
  constructor
  · intro s T inp g out b hu0 hT hb hout
    obtain ⟨hg, rfl⟩ := List.getElem?_eq_some_iff.mp hb
    have hact := actU0_busy_lt hT hg hg hout
    rw [← hu0, List.take_one_drop_eq_of_lt_length hg] at hact
    exact ⟨_, _, lut16_hiNib T hT inp[g], lut16_loNib T hT inp[g], unitAct_u0 hact⟩
  · rintro s T inp ⟨hT, pos, -, -, -, hu0⟩ hend
    obtain rfl : pos = inp.length := by simpa [hu0, busyRec] using hend
    refine ⟨b16encAll (lut16 T hT) inp, by simp [hu0, busyRec], b16encAll_length _ _, unitAct_u0 ?_⟩
    rw [hu0, List.take_length]
    exact actU0_busy_eq

/-! ## A run of one unit's moves (R168, R171), for any of the four units -/

theorem sameUnit_unitMoves (u v : UnitId) (k : Nat) (s : State) : SameUnit v s (unitMoves u k s) := by
  cases v <;> rfl

/-- The work left of a unit reads that unit's record only. -/
theorem unitWork_of_sameUnit {u : UnitId} {s t : State} (h : SameUnit u s t) : unitWork u s = unitWork u t := by
  cases u <;> (simp only [SameUnit] at h; simp [unitWork, h])

/-- The first of a unit's moves is taken by its action, on the state with one move less. -/
theorem step_unitMoves_succ (u : UnitId) (k : Nat) {s : State} (hreset : s.wasReset = true) :
    step (unitMoves u (k + 1) s) = unitAct u (unitMoves u k s) := by
  rw [step_unit (u := u) (rest := List.replicate k (.unit u)) rfl]
  exact if_neg (by simp [unitMoves, hreset])

theorem run_succ_of_step {s t : State} (k : Nat) (h : step s = .next t) :
    Host.Core.run core (k + 1) s = Host.Core.run core k t := by
  have hcore : core.step s = .next t := h
  simp only [Host.Core.run, hcore]

/-- A property `Serves` of unit `u`'s record, kept by the unit's actions while each takes one off the work left, stands
after as many moves as there is work, with no work left and the other units as before. Surplus moves change nothing. -/
theorem run_unitMoves {u : UnitId} {Serves : State → Prop}
    (hrecord : ∀ {s t}, SameUnit u s t → Serves s → Serves t)
    (hact : ∀ {s}, Serves s → ∃ t, unitAct u s = .next t ∧ Serves t ∧ unitWork u t ≤ unitWork u s - 1)
    (k : Nat) {s : State} (hreset : s.wasReset = true) (hserves : Serves s) (hwork : unitWork u s ≤ k) :
    ∃ t, Host.Core.run core k (unitMoves u k s) = .next t ∧ Serves t ∧ unitWork u t = 0 ∧
      ∀ v, v ≠ u → SameUnit v s t := by
  induction k generalizing s with
  | zero =>
    have hsame := sameUnit_unitMoves u u 0 s
    exact ⟨unitMoves u 0 s, rfl, hrecord hsame hserves, by rw [← unitWork_of_sameUnit hsame]; omega,
      fun v _ => sameUnit_unitMoves u v 0 s⟩
  | succ k ih =>
    have hsame := sameUnit_unitMoves u u k s
    obtain ⟨t, ht, htserves, htwork⟩ := hact (hrecord hsame hserves)
    obtain ⟨-, hrun, -, hmark, -⟩ := unitAct_sameAround ht
    have hrest : List.replicate k (.unit u) = t.run := hrun
    have hmoves : unitMoves u k t = t := by rw [unitMoves, hrest]
    rw [← unitWork_of_sameUnit hsame] at htwork
    obtain ⟨t', hrun', ht'serves, ht'work, hothers⟩ := ih (hmark.symm.trans hreset) htserves (by omega)
    refine ⟨t', ?_, ht'serves, ht'work, fun v hv => ?_⟩
    · rw [run_succ_of_step k ((step_unitMoves_succ u k hreset).trans ht), ← hmoves, hrun']
    · exact sameUnit_trans (sameUnit_unitMoves u v k s) (sameUnit_trans (unitAct_sameUnit ht hv) (hothers v hv))

/-! ## START and the actions of U0 to the end (R103 (f)) -/

/-- A settled record has no action left. -/
theorem recWork_settled {α β : Type} (x : Except Reason (List β)) : recWork (settled x : UnitRec α β) = 0 := by
  cases x <;> rfl

/-- A BUSY U0 needs FINISH at least. -/
theorem recWork_pos_of_busyU0 {T : List Sym} {inp : List Byte} {r : EncUnit} (h : BusyU0 T inp r) : 0 < recWork r := by
  obtain ⟨_, _, _, _, _, rfl⟩ := h
  exact Nat.succ_pos _

/-- A U0 that serves a transaction and has no action left has its outcome. -/
theorem settled_of_servesU0 {T : List Sym} {inp : List Byte} {r : EncUnit} (h : ServesU0 T inp r)
    (hwork : recWork r = 0) : r = settled (b16enc inp T) :=
  h.resolve_left fun hbusy => (recWork_pos_of_busyU0 hbusy).ne' hwork

/-- An action of a U0 that serves a transaction takes one off the work left, if there is any. -/
theorem unitAct_u0_servesU0 {T : List Sym} {inp : List Byte} {s : State} (h : ServesU0 T inp s.u0) :
    ∃ t, unitAct .u0 s = .next t ∧ ServesU0 T inp t.u0 ∧ unitWork .u0 t ≤ unitWork .u0 s - 1 := by
  obtain hbusy | hdone := h
  · obtain ⟨r, hact, hserves, hprogress⟩ := actU0_serves hbusy
    refine ⟨_, unitAct_u0 hact, hserves, ?_⟩
    change recWork r ≤ recWork s.u0 - 1
    omega
  · have hact : actU0 s.u0 = .ok s.u0 := by simp [actU0, hdone, settled_phase]
    refine ⟨_, unitAct_u0 hact, .inr hdone, ?_⟩
    change recWork s.u0 ≤ recWork s.u0 - 1
    simp [hdone, recWork_settled]

/-- START leaves at most a granule for each byte, and FINISH. -/
theorem recWork_startU0_le (T : List Sym) (inp : List Byte) : recWork (startU0 T inp) ≤ inp.length + 1 := by
  unfold startU0
  cases startReason 16 1 inp.length T false with
  | some r => exact Nat.zero_le _
  | none => exact le_rfl

/-- R161: an IDLE U0 takes operands that the ports can carry. -/
theorem exec_b16enc_taken {d : Bool} {s : State} (hreset : s.wasReset = true) (hidle : s.u0.phase = .idle)
    (hfit : EncodeOperandsFit d s) :
    exec (.b16enc d) s = .next { s with u0 := startU0 (tableOperand16 d s.ports) s.ports.inB } :=
  startGate_taken hreset hidle ((encodeRefusal_none d s).mpr hfit)

/-- Settles O48: START serves the transaction of its operands, and `n + 1` moves leave U0 no work. -/
theorem b16encMachineIsTheFunction : Obligations.B16encMachineIsTheFunction := by
  intro d s k hreset hidle hfit hk
  have hstart := exec_b16enc_taken hreset hidle hfit
  have hserves := startU0_serves (tableOperand16 d s.ports) s.ports.inB
  have hwork := (recWork_startU0_le (tableOperand16 d s.ports) s.ports.inB).trans hk
  obtain ⟨t, hrun, htserves, hdone, hothers⟩ :=
    run_unitMoves (u := .u0) (Serves := fun x => ServesU0 (tableOperand16 d s.ports) s.ports.inB x.u0)
      (fun hsame h => hsame ▸ h) unitAct_u0_servesU0 k
      (s := { s with u0 := startU0 (tableOperand16 d s.ports) s.ports.inB }) hreset hserves hwork
  exact ⟨_, t, hstart, hrun, settled_of_servesU0 htserves hdone, (hothers .u1 (by decide)).symm,
    (hothers .u2 (by decide)).symm, (hothers .u3 (by decide)).symm⟩

end Sys2Proof.Machine
end

section
/-! PROOFS. The B16DEC family: a pair and its byte (R112), the round trips of base16 (R115), the placement of the
padding (R142) and on what the two decoders succeed (R115, R149), the granule step of U1 (R114), and the machine's run
against the transaction function (R115 (f)). -/

namespace Sys2Proof.Machine

open Sys2Proof.Safety

/-! ## A pair of nibbles and its byte (R112) -/

/-- R112: the OR of the two nibble fields is their sum. -/
theorem b16decPair_toNat (h l : Nib) : (b16decPair h l).toNat = 16 * h.toNat + l.toNat := by revert h l; decide

theorem hiNib_b16decPair (h l : Nib) : hiNib (b16decPair h l) = h := by
  apply BitVec.eq_of_toNat_eq
  rw [hiNib_toNat, b16decPair_toNat]
  omega

theorem loNib_b16decPair (h l : Nib) : loNib (b16decPair h l) = l := by
  apply BitVec.eq_of_toNat_eq
  rw [loNib_toNat, b16decPair_toNat]
  omega

theorem b16decPair_hiNib_loNib (b : Byte) : b16decPair (hiNib b) (loNib b) = b := by
  apply BitVec.eq_of_toNat_eq
  rw [b16decPair_toNat, hiNib_toNat, loNib_toNat]
  omega

theorem b16decPair_eq_ofNat (h l : Nib) : b16decPair h l = BitVec.ofNat 8 (16 * h.toNat + l.toNat) := by
  rw [← b16decPair_toNat, BitVec.ofNat_toNat, BitVec.setWidth_eq]

/-- The two values of a pair of symbols, in order. -/
theorem lookupAll_pair {ν : Type} {look : Sym → Option ν} {s0 s1 : Sym} {h l : ν} (h0 : look s0 = some h)
    (h1 : look s1 = some l) : lookupAll look [s0, s1] = some [h, l] :=
  lookupAll_eq_some.mpr (by simp [h0, h1])

/-- The loop succeeds on a first pair and the rest exactly when both symbols of the pair are known and it succeeds on
the rest; the pair's byte comes first. -/
theorem b16decAll_pair_eq_ok {look : Sym → Option Nib} {s0 s1 : Sym} {rest : List Sym} {out : List Byte} :
    b16decAll look (s0 :: s1 :: rest) = .ok out ↔
      ∃ h l tail, look s0 = some h ∧ look s1 = some l ∧ b16decAll look rest = .ok tail ∧
        out = b16decPair h l :: tail := by
  rw [b16decAll_pair]
  cases h0 : look s0 with
  | none => simp [lookupAll, h0]
  | some h =>
    cases h1 : look s1 with
    | none => simp [lookupAll, h0, h1]
    | some l =>
      rw [lookupAll_pair h0 h1]
      cases b16decAll look rest <;> simp [Except.map, b16decGranule, eq_comm]

/-- Settles O6: the pair as a number, and the loop on one pair. -/
theorem pairRecombine : Obligations.PairRecombine :=
  ⟨fun h l => ⟨b16decPair_toNat h l, hiNib_b16decPair h l, loNib_b16decPair h l⟩,
    fun _ _ _ h l h0 h1 => b16decAll_pair_eq_ok.mpr ⟨h, l, [], h0, h1, rfl, rfl⟩⟩

/-! ## The round trips of base16 (R115 (c), (d)) -/

/-- R110: a nibble is the value of its own index. -/
theorem sym2nib_eq_some {T : List Sym} (hlen : T.length = 16) {x : Sym} {v : Nib} :
    sym2nib T x = some v ↔ rlut T x = some v.toNat := by
  cases h : rlut T x with
  | none => simp [sym2nib, h]
  | some i =>
    have hlt := rlut_lt h
    have hindex : BitVec.ofNat 4 i = v ↔ i = v.toNat := by
      rw [← BitVec.toNat_inj, BitVec.toNat_ofNat, Nat.mod_eq_of_lt (by omega)]
    simp [sym2nib, h, hindex]

/-- R26, R110: on a valid table the two lookups are inverse to each other. -/
theorem sym2nib_eq_some_iff_lut16 {T : List Sym} (hlen : T.length = 16) (hT : distinct T = true) {x : Sym} {v : Nib} :
    sym2nib T x = some v ↔ lut16 T hlen v = x := by
  rw [sym2nib_eq_some hlen, rlut_eq_some hT, lut16_spec T hlen, Option.some_inj]

theorem b16decAll_b16encAll {look : Sym → Option Nib} {sym : Nib → Sym} (hlook : ∀ v, look (sym v) = some v)
    (bytes : List Byte) : b16decAll look (b16encAll sym bytes) = .ok bytes := by
  induction bytes with
  | nil => rfl
  | cons b bs ih =>
    rw [b16encAll_cons, b16decAll_pair_eq_ok]
    exact ⟨hiNib b, loNib b, bs, hlook _, hlook _, ih, by rw [b16decPair_hiNib_loNib]⟩

theorem b16encAll_of_b16decAll {look : Sym → Option Nib} {sym : Nib → Sym}
    (hsym : ∀ {x v}, look x = some v → sym v = x) {syms : List Sym} {out : List Byte} (heven : syms.length % 2 = 0)
    (h : b16decAll look syms = .ok out) : b16encAll sym out = syms := by
  match syms, heven with
  | [], _ =>
    cases h
    rfl
  | s0 :: s1 :: rest, heven =>
    obtain ⟨hi, lo, tail, h0, h1, htail, rfl⟩ := b16decAll_pair_eq_ok.mp h
    have ih := b16encAll_of_b16decAll hsym (by simp only [List.length_cons] at heven; omega) htail
    rw [b16encAll_cons, hiNib_b16decPair, loNib_b16decPair, hsym h0, hsym h1, ih]
termination_by syms.length

theorem b16dec_of_b16enc {bytes : List Byte} {T out : List Sym} (h : b16enc bytes T = .ok out) :
    b16dec out T = .ok bytes := by
  have hlen := b16enc_ok_length h
  have hne := b16enc_ok_ne_nil h
  obtain ⟨-, hdistinct, hT, rfl⟩ := b16enc_ok_inv h
  rw [b16dec_run hT hdistinct hne (by omega)]
  exact b16decAll_b16encAll (fun v => (sym2nib_eq_some_iff_lut16 hT hdistinct).mpr rfl) bytes

theorem b16enc_of_b16dec {syms T : List Sym} {out : List Byte} (h : b16dec syms T = .ok out) :
    b16enc out T = .ok syms := by
  obtain ⟨-, hT, hdistinct, heven, hrun⟩ := b16dec_ok_inv h
  rw [b16enc_ok hT hdistinct (b16dec_ok_ne_nil h)]
  exact congrArg _ (b16encAll_of_b16decAll (sym2nib_eq_some_iff_lut16 hT hdistinct).mp heven hrun)

/-- Settles O15: the lookups, and a byte and its nibbles, are inverse to each other, granule by granule. -/
theorem base16RoundTrip : Obligations.Base16RoundTrip :=
  ⟨fun _ _ _ => b16dec_of_b16enc, fun _ _ _ => b16enc_of_b16dec⟩

/-! ## On what B16DEC succeeds (R115 (b)) -/

/-- R110: the symbols with a value are the table's entries. -/
theorem sym2nib_known_iff {T : List Sym} {x : Sym} : (∃ v, sym2nib T x = some v) ↔ x ∈ T := by
  rw [← Option.ne_none_iff_exists', sym2nib, Ne, Option.map_eq_none_iff, rlut_eq_none, not_not]

theorem b16decAll_succeeds_iff {look : Sym → Option Nib} {syms : List Sym} (heven : syms.length % 2 = 0) :
    (∃ out, b16decAll look syms = .ok out) ↔ ∀ s ∈ syms, ∃ v, look s = some v := by
  match syms, heven with
  | [], _ => simp [b16decAll]
  | s0 :: s1 :: rest, heven =>
    have ih := b16decAll_succeeds_iff (look := look) (syms := rest) (by simp only [List.length_cons] at heven; omega)
    simp only [List.forall_mem_cons, ← ih, b16decAll_pair_eq_ok]
    constructor
    · rintro ⟨_, h, l, tail, h0, h1, htail, -⟩
      exact ⟨⟨h, h0⟩, ⟨l, h1⟩, ⟨tail, htail⟩⟩
    · rintro ⟨⟨h, h0⟩, ⟨l, h1⟩, ⟨tail, htail⟩⟩
      exact ⟨_, h, l, tail, h0, h1, htail, rfl⟩
termination_by syms.length

theorem b16dec_succeeds_iff {syms T : List Sym} (hT : ValidTable 16 T) :
    (∃ out, b16dec syms T = .ok out) ↔ 2 ≤ syms.length ∧ syms.length % 2 = 0 ∧ ∀ x ∈ syms, x ∈ T := by
  obtain ⟨hlen, hdistinct⟩ := (validTable_iff 16 T).mp hT
  simp only [← sym2nib_known_iff (T := T)]
  constructor
  · rintro ⟨out, h⟩
    obtain ⟨hne, -, -, heven, hrun⟩ := b16dec_ok_inv h
    have hpos := List.length_pos_iff.mpr hne
    exact ⟨by omega, heven, (b16decAll_succeeds_iff heven).mp ⟨out, hrun⟩⟩
  · rintro ⟨hmin, heven, hknown⟩
    rw [b16dec_run hlen hdistinct (List.ne_nil_of_length_pos (by omega)) heven]
    exact (b16decAll_succeeds_iff heven).mpr hknown

/-! ## The placement of the padding (R142) -/

/-- The padding set is a given list of positions when it has the same elements, both lists being increasing. -/
theorem padPositions_eq_iff {pad : Sym} {inp : List Sym} {ps : List Nat} (hps : ps.Pairwise (· < ·))
    (hlt : ∀ i ∈ ps, i < inp.length) :
    padPositions pad inp = ps ↔ ∀ i, i < inp.length → (inp[i]? = some pad ↔ i ∈ ps) := by
  constructor
  · rintro rfl i -
    exact mem_padPositions.symm
  · intro h
    refine (padPositions_sorted pad inp).eq_of_mem_iff hps fun i => ?_
    rw [mem_padPositions]
    by_cases hi : i < inp.length
    · exact h i hi
    · simp only [List.getElem?_eq_none (Nat.le_of_not_lt hi), reduceCtorEq, false_iff]
      exact fun hmem => hi (hlt i hmem)

/-- The check passes on one of R142's three padding sets. -/
theorem misplacedPadding_eq_false {T inp : List Sym} (hlen : T.length = 65) :
    misplacedPadding T inp = false ↔ padPositions (padSym T hlen) inp = [] ∨
      padPositions (padSym T hlen) inp = [inp.length - 1] ∨
      padPositions (padSym T hlen) inp = [inp.length - 2, inp.length - 1] := by
  simp only [misplacedPadding, pad_spec T hlen, Bool.not_eq_false', Bool.or_eq_true, beq_iff_eq, or_assoc]

/-- R142: the check on the padding set is the spec's condition. -/
theorem misplacedPadding_eq_false_iff_placed {T inp : List Sym} (hlen : T.length = 65) (hmin : 2 ≤ inp.length) :
    misplacedPadding T inp = false ↔ PaddingPlaced T inp := by
  have hlast : ∀ i, i = inp.length - 1 ↔ i + 1 = inp.length := by omega
  have hlastButOne : ∀ i, i = inp.length - 2 ↔ i + 2 = inp.length := by omega
  rw [misplacedPadding_eq_false hlen, PaddingPlaced, pad_spec T hlen]
  refine or_congr ?_ (or_congr ?_ ?_)
  · rw [padPositions_eq_iff (by simp) (by simp)]
    simp
  · rw [padPositions_eq_iff (by simp) (by simp; omega)]
    simp [hlast]
  · rw [padPositions_eq_iff (by simp; omega) (by simp; omega)]
    simp [hlast, hlastButOne]

theorem padCount_val (T inp : List Sym) : (padCount T inp).val =
    (if inp[inp.length - 2]? = T[64]? then 1 else 0) + (if inp[inp.length - 1]? = T[64]? then 1 else 0) := by
  simp only [padCount]
  split_ifs <;> rfl

/-- R142 (d): well placed padding stands in exactly the last npad positions. -/
theorem padding_iff_of_placed {T inp : List Sym} (hmin : 2 ≤ inp.length) (hplaced : PaddingPlaced T inp) {i : Nat}
    (hi : i < inp.length) : inp[i]? = T[64]? ↔ inp.length ≤ i + (padCount T inp).val := by
  have hlast : inp.length - 1 < inp.length := by omega
  have hlastButOne : inp.length - 2 < inp.length := by omega
  rw [padCount_val]
  obtain h | h | h := hplaced
  · rw [if_neg (h _ hlast), if_neg (h _ hlastButOne)]
    exact iff_of_false (h i hi) (by omega)
  · rw [if_pos ((h _ hlast).mpr (by omega)), if_neg ((h _ hlastButOne).not.mpr (by omega)), h i hi]
    omega
  · rw [if_pos ((h _ hlast).mpr (by omega)), if_pos ((h _ hlastButOne).mpr (by omega)), h i hi]
    omega

/-! ## On what B64DEC succeeds (R149 (b)) -/

theorem lookupAll_succeeds_iff {ν : Type} {look : Sym → Option ν} {ss : List Sym} :
    (∃ vs, lookupAll look ss = some vs) ↔ ∀ s ∈ ss, ∃ v, look s = some v := by
  simp only [← Option.ne_none_iff_exists', Ne, lookupAll_eq_none, not_exists, not_and]

/-- The loop succeeds on a first group and the rest exactly when the group's data symbols are known and it succeeds on
the rest; the group's bytes come first. -/
theorem b64decAll_group_eq_ok {look : Sym → Option Sext} {p : Fin 3} {s0 s1 s2 s3 : Sym} {rest : List Sym}
    {out : List Byte} :
    b64decAll look p (s0 :: s1 :: s2 :: s3 :: rest) = .ok out ↔
      ∃ vs tail, lookupAll look ([s0, s1, s2, s3].take (if rest = [] then 4 - p.val else 4)) = some vs ∧
        b64decAll look p rest = .ok tail ∧ out = b64decGroup vs ++ tail := by
  rw [b64decAll_group]
  cases lookupAll look ([s0, s1, s2, s3].take (if rest = [] then 4 - p.val else 4)) with
  | none => simp
  | some vs => cases b64decAll look p rest <;> simp [Except.map, eq_comm]

/-- The data symbols of a first group and the rest: the group's own, then the rest's. -/
theorem take_data_group {p : Nat} (hp : p < 3) (s0 s1 s2 s3 : Sym) {rest : List Sym} (hrest : rest.length % 4 = 0) :
    (s0 :: s1 :: s2 :: s3 :: rest).take ((s0 :: s1 :: s2 :: s3 :: rest).length - p) =
      [s0, s1, s2, s3].take (if rest = [] then 4 - p else 4) ++ rest.take (rest.length - p) := by
  by_cases h : rest = []
  · simp [h]
  · have hpos := List.length_pos_iff.mpr h
    have hlength : (s0 :: s1 :: s2 :: s3 :: rest).length - p = 4 + (rest.length - p) := by
      simp only [List.length_cons]
      omega
    rw [hlength, if_neg h, List.take_add]
    rfl

/-- The loop reads every symbol but the last `p`. -/
theorem b64decAll_succeeds_iff {look : Sym → Option Sext} {p : Fin 3} {syms : List Sym} (hmod : syms.length % 4 = 0) :
    (∃ out, b64decAll look p syms = .ok out) ↔ ∀ s ∈ syms.take (syms.length - p.val), ∃ v, look s = some v := by
  match syms, hmod with
  | [], _ => simp [b64decAll]
  | s0 :: s1 :: s2 :: s3 :: rest, hmod =>
    have hrest : rest.length % 4 = 0 := by
      simp only [List.length_cons] at hmod
      omega
    have ih := b64decAll_succeeds_iff (look := look) (p := p) hrest
    rw [take_data_group p.isLt s0 s1 s2 s3 hrest, List.forall_mem_append, ← ih, ← lookupAll_succeeds_iff]
    simp only [b64decAll_group_eq_ok]
    constructor
    · rintro ⟨_, vs, tail, hvs, htail, -⟩
      exact ⟨⟨vs, hvs⟩, ⟨tail, htail⟩⟩
    · rintro ⟨⟨vs, hvs⟩, ⟨tail, htail⟩⟩
      exact ⟨_, vs, tail, hvs, htail, rfl⟩
termination_by syms.length

/-- R140, R182 code 6: the symbols that stand for a sextet are the table's entries but the padding symbol. -/
theorem sym2sext_known_iff {T : List Sym} (hT : distinct T = true) {x : Sym} :
    (∃ v, sym2sext T x = some v) ↔ x ∈ T ∧ some x ≠ T[64]? := by
  have hpad : some x = T[64]? ↔ rlut T x = some 64 := eq_comm.trans (rlut_eq_some hT).symm
  rw [Ne, hpad, ← not_not (a := x ∈ T), ← rlut_eq_none]
  cases h : rlut T x with
  | none => simp [sym2sext, sym2val, h]
  | some i => by_cases hi : i = 64 <;> simp [sym2sext, sym2val, h, hi]

/-- With the padding well placed, the data symbols are known exactly when every symbol is an entry: a padding symbol
is one, and it is at no data position. -/
theorem data_known_iff {T inp : List Sym} (hT : distinct T = true) (hmin : 2 ≤ inp.length)
    (hplaced : PaddingPlaced T inp) :
    (∀ s ∈ inp.take (inp.length - (padCount T inp).val), ∃ v, sym2sext T s = some v) ↔ ∀ x ∈ inp, x ∈ T := by
  simp only [sym2sext_known_iff hT]
  constructor
  · intro h x hx
    obtain ⟨i, hi, rfl⟩ := List.mem_iff_getElem.mp hx
    by_cases hdata : i < inp.length - (padCount T inp).val
    · exact (h _ (List.mem_take_iff_getElem.mpr ⟨i, by omega, rfl⟩)).1
    · have hpad := (padding_iff_of_placed hmin hplaced hi).mpr (by omega)
      rw [List.getElem?_eq_getElem hi] at hpad
      exact List.mem_of_getElem? hpad.symm
  · intro h x hx
    obtain ⟨i, hi, rfl⟩ := List.mem_take_iff_getElem.mp hx
    have hdata := (padding_iff_of_placed hmin hplaced (i := i) (by omega)).not.mpr (by omega)
    rw [List.getElem?_eq_getElem (by omega)] at hdata
    exact ⟨h _ (List.getElem_mem _), hdata⟩

theorem b64dec_succeeds_iff {syms T : List Sym} (hT : ValidTable 65 T) :
    (∃ out, b64dec syms T = .ok out) ↔
      4 ≤ syms.length ∧ syms.length % 4 = 0 ∧ PaddingPlaced T syms ∧ ∀ x ∈ syms, x ∈ T := by
  obtain ⟨hlen, hdistinct⟩ := (validTable_iff 65 T).mp hT
  constructor
  · rintro ⟨out, h⟩
    obtain ⟨hne, -, -, hmod, hpadding, hrun⟩ := b64dec_ok_inv h
    have hpos := List.length_pos_iff.mpr hne
    have hplaced := (misplacedPadding_eq_false_iff_placed hlen (by omega)).mp hpadding
    exact ⟨by omega, hmod, hplaced,
      (data_known_iff hdistinct (by omega) hplaced).mp ((b64decAll_succeeds_iff hmod).mp ⟨out, hrun⟩)⟩
  · rintro ⟨hmin, hmod, hplaced, hentries⟩
    have hpadding := (misplacedPadding_eq_false_iff_placed hlen (by omega)).mpr hplaced
    rw [b64dec_run hlen hdistinct (List.ne_nil_of_length_pos (by omega)) hmod hpadding]
    exact (b64decAll_succeeds_iff hmod).mpr ((data_known_iff hdistinct (by omega) hplaced).mpr hentries)

/-- Settles O18: with a valid table a decoder fails only on the length, on the padding, or on a symbol it reads. -/
theorem decodersSucceedExactly : Obligations.DecodersSucceedExactly :=
  ⟨fun _ _ => b16dec_succeeds_iff, fun _ _ => b64dec_succeeds_iff⟩

/-! ## The granule step of U1 (R114) and its action on a state (R160) -/

theorem unitAct_u1 {s : State} {r : Dec16Unit} (h : actU1 s.u1 = .ok r) :
    unitAct .u1 s = .next { s with u1 := r } := by
  simp [unitAct, h]

theorem take_two_drop {α : Type} {l : List α} {i : Nat} {a b : α} (ha : l[i]? = some a) (hb : l[i + 1]? = some b) :
    (l.drop i).take 2 = [a, b] := by
  obtain ⟨hi, rfl⟩ := List.getElem?_eq_some_iff.mp ha
  obtain ⟨hi', rfl⟩ := List.getElem?_eq_some_iff.mp hb
  rw [List.drop_eq_getElem_cons hi, List.drop_eq_getElem_cons hi']
  rfl

/-- Settles O27: with a granule left the action is the granule step on one pair, with none left it is FINISH. -/
theorem granuleOfB16dec : Obligations.GranuleOfB16dec := by
  constructor
  · intro s T inp rl g out s0 s1 hu1 hs0 hs1 hout
    obtain ⟨hlt, -⟩ := List.getElem?_eq_some_iff.mp hs1
    have hact := actU1_busy_lt (T := T) (rl := rl) (n := inp.length / 2) (show 2 * g + 2 ≤ inp.length from hlt)
      (by omega) hout
    rw [← hu1, take_two_drop hs0 hs1] at hact
    constructor
    · intro hunknown
      rw [lookupAll_eq_none.mpr (by simpa using hunknown)] at hact
      exact unitAct_u1 hact
    · intro h l hh hl
      rw [lookupAll_pair hh hl] at hact
      rw [← b16decPair_eq_ofNat]
      exact unitAct_u1 hact
  · rintro s T inp ⟨pos, out, -, -, -, -, -, hrun, hu1⟩ hend
    obtain rfl : pos = inp.length / 2 := by simpa [hu1, busyRec] using hend
    refine ⟨out, by simp [hu1, busyRec], ?_, unitAct_u1 (by rw [hu1]; exact actU1_busy_eq)⟩
    rw [b16decAll_length hrun, List.length_take]
    omega

/-! ## START and the actions of U1 to the end (R115 (f)) -/

/-- A BUSY U1 needs FINISH at least. -/
theorem recWork_pos_of_busyU1 {T inp : List Sym} {r : Dec16Unit} (h : BusyU1 T inp r) : 0 < recWork r.toUnitRec := by
  obtain ⟨_, _, _, _, _, _, _, _, rfl⟩ := h
  exact Nat.succ_pos _

/-- A U1 that serves a transaction and has no action left has its outcome. -/
theorem settledDec_of_servesU1 {T inp : List Sym} {r : Dec16Unit} (h : ServesU1 T inp r)
    (hwork : recWork r.toUnitRec = 0) : r = settledDec (b16dec inp T) :=
  h.resolve_left fun hbusy => (recWork_pos_of_busyU1 hbusy).ne' hwork

/-- An action of a U1 that serves a transaction takes one off the work left, if there is any, or all of it. -/
theorem unitAct_u1_servesU1 {T inp : List Sym} {s : State} (h : ServesU1 T inp s.u1) :
    ∃ t, unitAct .u1 s = .next t ∧ ServesU1 T inp t.u1 ∧ unitWork .u1 t ≤ unitWork .u1 s - 1 := by
  obtain hbusy | hdone := h
  · obtain ⟨r, hact, hserves, hprogress⟩ := actU1_serves hbusy
    refine ⟨_, unitAct_u1 hact, hserves, ?_⟩
    change recWork r.toUnitRec ≤ recWork s.u1.toUnitRec - 1
    omega
  · have hact : actU1 s.u1 = .ok s.u1 := by simp [actU1, hdone, settledDec, settled_phase]
    refine ⟨_, unitAct_u1 hact, .inr hdone, ?_⟩
    change recWork s.u1.toUnitRec ≤ recWork s.u1.toUnitRec - 1
    simp [hdone, settledDec, recWork_settled]

/-- START leaves at most a granule for each pair, and FINISH. -/
theorem recWork_startU1_le (T inp : List Sym) : recWork (startU1 T inp).toUnitRec ≤ inp.length / 2 + 1 := by
  unfold startU1
  cases startReason 16 2 inp.length T false with
  | some r => exact Nat.zero_le _
  | none => exact le_rfl

/-- R161: an IDLE U1 takes operands that the ports can carry. -/
theorem exec_b16dec_taken {d : Bool} {s : State} (hreset : s.wasReset = true) (hidle : s.u1.phase = .idle)
    (hfit : DecodeOperandsFit d s) :
    exec (.b16dec d) s = .next { s with u1 := startU1 (tableOperand16 d s.ports) s.ports.inS } :=
  startGate_taken hreset hidle ((decodeRefusal_none d s).mpr hfit)

/-- Settles O49: START serves the transaction of its operands, and `n/2 + 1` moves leave U1 no work. -/
theorem b16decMachineIsTheFunction : Obligations.B16decMachineIsTheFunction := by
  intro d s k hreset hidle hfit hk
  have hstart := exec_b16dec_taken hreset hidle hfit
  have hserves := startU1_serves (tableOperand16 d s.ports) s.ports.inS
  have hwork := (recWork_startU1_le (tableOperand16 d s.ports) s.ports.inS).trans hk
  obtain ⟨t, hrun, htserves, hdone, hothers⟩ :=
    run_unitMoves (u := .u1) (Serves := fun x => ServesU1 (tableOperand16 d s.ports) s.ports.inS x.u1)
      (fun hsame h => hsame ▸ h) unitAct_u1_servesU1 k
      (s := { s with u1 := startU1 (tableOperand16 d s.ports) s.ports.inS }) hreset hserves hwork
  exact ⟨_, t, hstart, hrun, settledDec_of_servesU1 htserves hdone, (hothers .u0 (by decide)).symm,
    (hothers .u2 (by decide)).symm, (hothers .u3 (by decide)).symm⟩

end Sys2Proof.Machine
end

section
/-! PROOFS. The B64ENC family: where the padding stands (R131 (b)), the granule step of U2 and its tails (R130), and the
machine's run against the transaction function (R131 (e)). -/

namespace Sys2Proof.Machine

open Sys2Proof.Safety

/-! ## Data symbols, then padding (R128, R131 (b)) -/

/-- R128: the loop's output is the symbols of some sextets and then the padding, one symbol for each byte that the last
granule lacks. -/
theorem b64encAll_eq_data_append_padding (sym : Sext → Sym) (pad : Sym) (bytes : List Byte) :
    ∃ vs : List Sext, b64encAll sym pad bytes = vs.map sym ++ List.replicate ((3 - bytes.length % 3) % 3) pad := by
  match bytes with
  | [] => exact ⟨[], rfl⟩
  | [_] => exact ⟨[_, _], rfl⟩
  | [_, _] => exact ⟨[_, _, _], rfl⟩
  | b0 :: b1 :: b2 :: rest =>
    obtain ⟨vs, hrest⟩ := b64encAll_eq_data_append_padding sym pad rest
    have hmod : (b0 :: b1 :: b2 :: rest).length % 3 = rest.length % 3 := Nat.add_mod_right rest.length 3
    rw [b64encAll, hrest, hmod]
    exact ⟨_ :: _ :: _ :: _ :: vs, rfl⟩
termination_by bytes.length

/-- R74: no data symbol of a valid table is its padding symbol. -/
theorem lut64_ne_padSym {T : List Sym} (hlen : T.length = 65) (hT : distinct T = true) (v : Sext) :
    lut64 T hlen v ≠ padSym T hlen := by
  obtain ⟨-, hpairs⟩ := (validTable_iff 65 T).mpr ⟨hlen, hT⟩
  have hne := hpairs v.toNat 64 v.isLt (by decide)
  rwa [lut64_spec T hlen, pad_spec T hlen, Ne, Option.some_inj] at hne

/-- Settles O13: the data symbols come first and none is the padding symbol, then comes the padding. -/
theorem base64EncodePadding : Obligations.Base64EncodePadding := by
  intro bytes T out h i x hx
  obtain ⟨-, hdistinct, hT, rfl⟩ := b64enc_ok_inv h
  obtain ⟨vs, hsplit⟩ := b64encAll_eq_data_append_padding (lut64 T hT) (padSym T hT) bytes
  rw [hsplit] at hx ⊢
  rw [List.length_append, List.length_map, List.length_replicate, pad_spec T hT, Option.some_inj]
  by_cases hi : i < vs.length
  · rw [List.getElem?_append_left (by simpa using hi), List.getElem?_map, Option.map_eq_some_iff] at hx
    obtain ⟨v, -, rfl⟩ := hx
    exact ⟨iff_of_false (lut64_ne_padSym hT hdistinct v).symm (by omega),
      fun _ => ⟨v.toNat, v.isLt, lut64_spec T hT v⟩⟩
  · rw [List.getElem?_append_right (by simpa using hi)] at hx
    have hpad := List.eq_of_mem_replicate (List.mem_of_getElem? hx)
    exact ⟨iff_of_true hpad.symm (by omega), fun hdata => absurd hdata (by omega)⟩

/-! ## The four symbols of a granule (R129) -/

/-- R125, R127: the read ports on the grouper's sextets give the entries at the slices of the group value. -/
theorem lut64_group3to4 (T : List Sym) (hT : T.length = 65) {b0 b1 b2 : Byte} {v0 v1 v2 v3 : Sext}
    (h : group3to4 b0 b1 b2 = (v0, v1, v2, v3)) :
    let w := b0.toNat * 2 ^ 16 + b1.toNat * 2 ^ 8 + b2.toNat
    T[w / 2 ^ 18]? = some (lut64 T hT v0) ∧ T[w / 2 ^ 12 % 64]? = some (lut64 T hT v1) ∧
      T[w / 2 ^ 6 % 64]? = some (lut64 T hT v2) ∧ T[w % 64]? = some (lut64 T hT v3) := by
  obtain ⟨h0, h1, h2, h3⟩ := group3to4_toNat h
  exact ⟨h0 ▸ lut64_spec T hT v0, h1 ▸ lut64_spec T hT v1, h2 ▸ lut64_spec T hT v2, h3 ▸ lut64_spec T hT v3⟩

/-- R129: the group function on one to three bytes: a byte that is not there counts as zero, and its symbol is the
padding symbol. -/
theorem b64encGroup_eq_entries (T : List Sym) (hT : T.length = 65) {bs : List Byte} (hbs : bs.length ∈ [1, 2, 3]) :
    let w := (bs.getD 0 0).toNat * 2 ^ 16 + (bs.getD 1 0).toNat * 2 ^ 8 + (bs.getD 2 0).toNat
    ∃ y0 y1 y2 y3, T[w / 2 ^ 18]? = some y0 ∧ T[w / 2 ^ 12 % 64]? = some y1 ∧
      T[if 2 ≤ bs.length then w / 2 ^ 6 % 64 else 64]? = some y2 ∧
      T[if bs.length = 3 then w % 64 else 64]? = some y3 ∧
      b64encGroup (lut64 T hT) (padSym T hT) bs = [y0, y1, y2, y3] := by
  match bs, hbs with
  | [b0, b1, b2], _ =>
    obtain ⟨h0, h1, h2, h3⟩ := lut64_group3to4 T hT (b0 := b0) (b1 := b1) (b2 := b2) rfl
    exact ⟨_, _, _, _, h0, h1, h2, h3, rfl⟩
  | [b0, b1], _ =>
    obtain ⟨h0, h1, h2, -⟩ := lut64_group3to4 T hT (b0 := b0) (b1 := b1) (b2 := 0) rfl
    exact ⟨_, _, _, _, h0, h1, h2, pad_spec T hT, rfl⟩
  | [b0], _ =>
    obtain ⟨h0, h1, -, -⟩ := lut64_group3to4 T hT (b0 := b0) (b1 := 0) (b2 := 0) rfl
    exact ⟨_, _, _, _, h0, h1, pad_spec T hT, pad_spec T hT, rfl⟩

/-! ## The unit action of U2 on a state (R130, R160) -/

theorem unitAct_u2 {s : State} {r : EncUnit} (h : actU2 s.u2 = .ok r) : unitAct .u2 s = .next { s with u2 := r } := by
  simp [unitAct, h]

/-- An element of a granule is the input's, a missing one too. -/
theorem getD_take_drop {α : Type} {l : List α} {i j k : Nat} (hj : j < k) (d : α) :
    ((l.drop i).take k).getD j d = l.getD (i + j) d := by
  simp [List.getD_eq_getElem?_getD, List.getElem?_take_of_lt hj, List.getElem?_drop]

/-- Settles O28: with a granule left the action appends the group function's symbols of the next three bytes, or of the
bytes that are left; with none left it is FINISH. -/
theorem granuleOfB64enc : Obligations.GranuleOfB64enc := by
  constructor
  · intro s T inp g out hu2 hT hg hout k w
    have hact := actU2_busy_lt hT (show 3 * g < inp.length by omega) hg hout
    have hlength : ((inp.drop (3 * g)).take 3).length = k := by rw [List.length_take, List.length_drop]
    have hgranule : ((inp.drop (3 * g)).take 3).length ∈ [1, 2, 3] := by simp; omega
    obtain ⟨y0, y1, y2, y3, h0, h1, h2, h3, hgroup⟩ := b64encGroup_eq_entries T hT hgranule
    simp (disch := decide) only [getD_take_drop, hlength] at h0 h1 h2 h3
    rw [← hu2, b64encAll_group _ _ hgranule, hgroup] at hact
    exact ⟨by omega, y0, y1, y2, y3, h0, h1, h2, h3, unitAct_u2 hact⟩
  · rintro s T inp ⟨hT, pos, -, -, -, hu2⟩ hend
    obtain rfl : pos = (inp.length + 2) / 3 := by simpa [hu2, busyRec] using hend
    refine ⟨b64encAll (lut64 T hT) (padSym T hT) inp, ?_, b64encAll_length _ _ _, unitAct_u2 ?_⟩
    all_goals rw [hu2, List.take_of_length_le (by omega)]
    · rfl
    · exact actU2_busy_eq

/-! ## START and the actions of U2 to the end (R131 (e)) -/

/-- A U2 that serves a transaction and has no action left has its outcome: BUSY, it would need FINISH at least. -/
theorem settled_of_servesU2 {T : List Sym} {inp : List Byte} {r : EncUnit} (h : ServesU2 T inp r)
    (hwork : recWork r = 0) : r = settled (b64enc inp T) := by
  obtain ⟨_, _, _, _, _, rfl⟩ | hdone := h
  · exact absurd hwork (Nat.succ_ne_zero _)
  · exact hdone

/-- An action of a U2 that serves a transaction takes one off the work left, if there is any. -/
theorem unitAct_u2_servesU2 {T : List Sym} {inp : List Byte} {s : State} (h : ServesU2 T inp s.u2) :
    ∃ t, unitAct .u2 s = .next t ∧ ServesU2 T inp t.u2 ∧ unitWork .u2 t ≤ unitWork .u2 s - 1 := by
  obtain hbusy | hdone := h
  · obtain ⟨r, hact, hserves, hprogress⟩ := actU2_serves hbusy
    refine ⟨_, unitAct_u2 hact, hserves, ?_⟩
    change recWork r ≤ recWork s.u2 - 1
    omega
  · have hact : actU2 s.u2 = .ok s.u2 := by simp [actU2, hdone, settled_phase]
    refine ⟨_, unitAct_u2 hact, .inr hdone, ?_⟩
    change recWork s.u2 ≤ recWork s.u2 - 1
    simp [hdone, recWork_settled]

/-- START leaves at most `ceil(n/3)` granules and FINISH. -/
theorem recWork_startU2_le (T : List Sym) (inp : List Byte) : recWork (startU2 T inp) ≤ (inp.length + 2) / 3 + 1 := by
  unfold startU2
  cases startReason 65 1 inp.length T false with
  | some r => exact Nat.zero_le _
  | none => exact le_rfl

/-- R161: an IDLE U2 takes operands that the ports can carry. -/
theorem exec_b64enc_taken {d : Bool} {s : State} (hreset : s.wasReset = true) (hidle : s.u2.phase = .idle)
    (hfit : EncodeOperandsFit d s) :
    exec (.b64enc d) s = .next { s with u2 := startU2 (tableOperand64 d s.ports) s.ports.inB } :=
  startGate_taken hreset hidle ((encodeRefusal_none d s).mpr hfit)

/-- Settles O50: START serves the transaction of its operands, and `ceil(n/3) + 1` moves leave U2 no work. -/
theorem b64encMachineIsTheFunction : Obligations.B64encMachineIsTheFunction := by
  intro d s k hreset hidle hfit hk
  have hstart := exec_b64enc_taken hreset hidle hfit
  have hserves := startU2_serves (tableOperand64 d s.ports) s.ports.inB
  have hwork := (recWork_startU2_le (tableOperand64 d s.ports) s.ports.inB).trans hk
  obtain ⟨t, hrun, htserves, hdone, hothers⟩ :=
    run_unitMoves (u := .u2) (Serves := fun x => ServesU2 (tableOperand64 d s.ports) s.ports.inB x.u2)
      (fun hsame h => hsame ▸ h) unitAct_u2_servesU2 k
      (s := { s with u2 := startU2 (tableOperand64 d s.ports) s.ports.inB }) hreset hserves hwork
  exact ⟨_, t, hstart, hrun, settled_of_servesU2 htserves hdone, (hothers .u0 (by decide)).symm,
    (hothers .u1 (by decide)).symm, (hothers .u3 (by decide)).symm⟩

end Sys2Proof.Machine
end

section
/-! PROOFS. The B64DEC family: grouper and ungrouper are inverse to each other (R143), the bits of a padded group that
reach no byte (R148), the padding set (R142), the round trips of base64 (R149 (c), (d)), the granule step of U3 (R146),
and the machine's run against the transaction function (R149 (e)). -/

namespace Sys2Proof.Machine

open Sys2Proof.Safety

/-! ## Three bytes and their four sextets (R127, R143): two views of one 24-bit number -/

theorem group3to4_eq_iff {b0 b1 b2 : Byte} {v0 v1 v2 v3 : Sext} :
    group3to4 b0 b1 b2 = (v0, v1, v2, v3) ↔ packSexts v0 v1 v2 v3 = packBytes b0 b1 b2 := by
  rw [← BitVec.toNat_inj, packSexts_toNat, packBytes_toNat]
  constructor
  · intro h
    obtain ⟨h0, h1, h2, h3⟩ := group3to4_toNat h
    omega
  · intro h
    simp only [group3to4, Prod.mk.injEq, ← BitVec.toNat_inj, sextAt_toNat, packBytes_toNat, ← h]
    omega

theorem ungroup4to3_eq_iff {v0 v1 v2 v3 : Sext} {b0 b1 b2 : Byte} :
    ungroup4to3 v0 v1 v2 v3 = (b0, b1, b2) ↔ packSexts v0 v1 v2 v3 = packBytes b0 b1 b2 := by
  rw [← BitVec.toNat_inj, packSexts_toNat, packBytes_toNat]
  constructor
  · intro h
    obtain ⟨h0, h1, h2⟩ := ungroup4to3_toNat h
    omega
  · intro h
    simp only [ungroup4to3, Prod.mk.injEq, ← BitVec.toNat_inj, byteAt_toNat, packSexts_toNat, h]
    omega

/-- R143: the sextets of three bytes are exactly the sextets that give these bytes. -/
theorem ungroup4to3_eq_iff_group3to4_eq {v0 v1 v2 v3 : Sext} {b0 b1 b2 : Byte} :
    ungroup4to3 v0 v1 v2 v3 = (b0, b1, b2) ↔ group3to4 b0 b1 b2 = (v0, v1, v2, v3) :=
  ungroup4to3_eq_iff.trans group3to4_eq_iff.symm

/-- Settles O8: bytes and sextets belong together exactly when they pack to the same 24-bit number. -/
theorem grouperAndUngrouperAreInverse : Obligations.GrouperAndUngrouperAreInverse :=
  ⟨fun _ _ _ _ _ _ _ => ungroup4to3_eq_iff_group3to4_eq.mpr,
    fun _ _ _ _ _ _ _ => ungroup4to3_eq_iff_group3to4_eq.mp⟩

/-! ## The bytes of a granule, and the bits that reach none (R144, R145, R148) -/

/-- R143: the ungrouper's bytes are the packed number, shifted, in eight bits. -/
theorem ungroup4to3_eq_ofNat (v0 v1 v2 v3 : Sext) :
    let w := v0.toNat * 2 ^ 18 + v1.toNat * 2 ^ 12 + v2.toNat * 2 ^ 6 + v3.toNat
    ungroup4to3 v0 v1 v2 v3 = (BitVec.ofNat 8 (w / 2 ^ 16), BitVec.ofNat 8 (w / 2 ^ 8), BitVec.ofNat 8 w) := by
  simp only [ungroup4to3, Prod.mk.injEq, ← BitVec.toNat_inj, byteAt_toNat, packSexts_toNat, BitVec.toNat_ofNat,
    pow_zero, Nat.div_one, Nat.reducePow, and_self]

/-- R144: what the ungrouper packs for a padding symbol. -/
theorem zero_sext_toNat : (0 : Sext).toNat = 0 := rfl

/-- R129: what the grouper packs for a byte that is not there. -/
theorem zero_byte_toNat : (0 : Byte).toNat = 0 := rfl

/-- R145: two to four sextets give one byte less, cut from the top of the packed number; a sextet that is not there
counts as zero. -/
theorem b64decGroup_eq_take {vs : List Sext} (hvs : vs.length ∈ [2, 3, 4]) :
    let w := (vs.getD 0 0).toNat * 2 ^ 18 + (vs.getD 1 0).toNat * 2 ^ 12 + (vs.getD 2 0).toNat * 2 ^ 6 +
      (vs.getD 3 0).toNat
    b64decGroup vs =
      [BitVec.ofNat 8 (w / 2 ^ 16), BitVec.ofNat 8 (w / 2 ^ 8), BitVec.ofNat 8 w].take (vs.length - 1) := by
  match vs, hvs with
  | [_, _], _ | [_, _, _], _ | [_, _, _, _], _ =>
    simp only [b64decGroup, ungroup4to3_eq_ofNat]
    rfl

/-- Settles O19: the bytes of a padded group are cut from the packed number above the bits in question. -/
theorem discardedBitsAreDropped : Obligations.DiscardedBitsAreDropped := by
  constructor
  · intro v0 v1 v2 v2' h
    simp only [b64decGroup, ungroup4to3_eq_ofNat, List.cons.injEq, ← BitVec.toNat_inj, BitVec.toNat_ofNat,
      zero_sext_toNat, and_true]
    omega
  · intro v0 v1 v1' h
    simp only [b64decGroup, ungroup4to3_eq_ofNat, List.cons.injEq, ← BitVec.toNat_inj, BitVec.toNat_ofNat,
      zero_sext_toNat, and_true]
    omega

/-! ## The padding set (R142) -/

/-- Settles O9: the check is the placement, and its count is the length of the padding. -/
theorem paddingCheckIsThePlacement : Obligations.PaddingCheckIsThePlacement := by
  intro T inp hlen hne hmod
  have hpos := List.length_pos_iff.mpr hne
  exact ⟨misplacedPadding_eq_false_iff_placed hlen (by omega),
    fun hplaced _ => padding_iff_of_placed (by omega) hplaced⟩

/-- Padding in exactly the last `p` positions, `p` at most two, is well placed. -/
theorem placed_of_padding_iff {T inp : List Sym} {p : Nat} (hp : p < 3)
    (h : ∀ i, i < inp.length → (inp[i]? = T[64]? ↔ inp.length ≤ i + p)) : PaddingPlaced T inp := by
  obtain rfl | rfl | rfl : p = 0 ∨ p = 1 ∨ p = 2 := by omega
  · exact .inl fun i hi => (h i hi).not.mpr (by omega)
  · exact .inr (.inl fun i hi => (h i hi).trans (by omega))
  · exact .inr (.inr fun i hi => (h i hi).trans (by omega))

/-- Padding in exactly the last `p` positions, `p` at most two, is counted right. -/
theorem padCount_of_padding_iff {T inp : List Sym} {p : Nat} (hp : p < 3) (hmin : 2 ≤ inp.length)
    (h : ∀ i, i < inp.length → (inp[i]? = T[64]? ↔ inp.length ≤ i + p)) : (padCount T inp).val = p := by
  have hlastButOne : inp[inp.length - 2]? = T[64]? ↔ 2 ≤ p := (h _ (by omega)).trans (by omega)
  have hlast : inp[inp.length - 1]? = T[64]? ↔ 1 ≤ p := (h _ (by omega)).trans (by omega)
  simp only [padCount_val, hlastButOne, hlast]
  split_ifs <;> omega

/-! ## Decoding an encoding (R149 (c)) -/

/-- R26, R140: on a valid table the two lookups of a sextet are inverse to each other. -/
theorem sym2sext_eq_some_iff_lut64 {T : List Sym} (hlen : T.length = 65) (hT : distinct T = true) {x : Sym} {v : Sext} :
    sym2sext T x = some v ↔ lut64 T hlen v = x := by
  have hdata : sym2sext T x = some v ↔ sym2val T x = some (.data v) := by
    rw [sym2sext]
    cases sym2val T x with
    | none => simp
    | some y => cases y <;> simp
  rw [hdata, sym2val_eq_data hlen, rlut_eq_some hT, lut64_spec T hlen, Option.some_inj]

theorem b64decGroup_of_group3to4 {b0 b1 b2 : Byte} {v0 v1 v2 v3 : Sext} (h : group3to4 b0 b1 b2 = (v0, v1, v2, v3)) :
    b64decGroup [v0, v1, v2, v3] = [b0, b1, b2] := by
  simp [b64decGroup, ungroup4to3_eq_iff_group3to4_eq.mpr h]

/-- R128: the last sextet of two bytes is zero, which is what R144 puts for it. -/
theorem b64decGroup_of_group3to4_two {b0 b1 : Byte} {v0 v1 v2 v3 : Sext} (h : group3to4 b0 b1 0 = (v0, v1, v2, v3)) :
    b64decGroup [v0, v1, v2] = [b0, b1] := by
  obtain ⟨-, -, -, h3⟩ := group3to4_toNat h
  obtain rfl : v3 = 0 := BitVec.eq_of_toNat_eq (by rw [h3, zero_byte_toNat, zero_sext_toNat]; omega)
  simp only [b64decGroup, ungroup4to3_eq_iff_group3to4_eq.mpr h]

/-- R128: the last two sextets of one byte are zero, which is what R144 puts for them. -/
theorem b64decGroup_of_group3to4_one {b0 : Byte} {v0 v1 v2 v3 : Sext} (h : group3to4 b0 0 0 = (v0, v1, v2, v3)) :
    b64decGroup [v0, v1] = [b0] := by
  obtain ⟨-, -, h2, h3⟩ := group3to4_toNat h
  obtain rfl : v2 = 0 := BitVec.eq_of_toNat_eq (by rw [h2, zero_byte_toNat, zero_sext_toNat]; omega)
  obtain rfl : v3 = 0 := BitVec.eq_of_toNat_eq (by rw [h3, zero_byte_toNat, zero_sext_toNat]; omega)
  simp only [b64decGroup, ungroup4to3_eq_iff_group3to4_eq.mpr h]

/-- The loop on an encoding gives the bytes back, when `p` is the number of bytes that the last granule lacks. -/
theorem b64decAll_b64encAll {look : Sym → Option Sext} {sym : Sext → Sym} (hlook : ∀ v, look (sym v) = some v)
    (pad : Sym) {p : Fin 3} (bytes : List Byte) (hp : p.val = (3 - bytes.length % 3) % 3) :
    b64decAll look p (b64encAll sym pad bytes) = .ok bytes := by
  match bytes, hp with
  | [], _ => rfl
  | [b0], hp =>
    obtain ⟨⟨v0, v1, v2, v3⟩, h⟩ : ∃ vs, group3to4 b0 0 0 = vs := ⟨_, rfl⟩
    simp only [b64encAll, b64encGroup, h]
    refine b64decAll_group_eq_ok.mpr ⟨[v0, v1], [], lookupAll_eq_some.mpr ?_, rfl, ?_⟩
    · simp [hp, hlook]
    · rw [b64decGroup_of_group3to4_one h, List.append_nil]
  | [b0, b1], hp =>
    obtain ⟨⟨v0, v1, v2, v3⟩, h⟩ : ∃ vs, group3to4 b0 b1 0 = vs := ⟨_, rfl⟩
    simp only [b64encAll, b64encGroup, h]
    refine b64decAll_group_eq_ok.mpr ⟨[v0, v1, v2], [], lookupAll_eq_some.mpr ?_, rfl, ?_⟩
    · simp [hp, hlook]
    · rw [b64decGroup_of_group3to4_two h, List.append_nil]
  | b0 :: b1 :: b2 :: rest, hp =>
    obtain ⟨⟨v0, v1, v2, v3⟩, h⟩ : ∃ vs, group3to4 b0 b1 b2 = vs := ⟨_, rfl⟩
    have hmod : (b0 :: b1 :: b2 :: rest).length % 3 = rest.length % 3 := Nat.add_mod_right rest.length 3
    rw [hmod] at hp
    have hdata : (if b64encAll sym pad rest = [] then 4 - p.val else 4) = 4 := by
      have hlength := b64encAll_length sym pad rest
      split_ifs with hempty
      · rw [hempty, List.length_nil] at hlength
        omega
      · rfl
    simp only [b64encAll, b64encGroup, h]
    refine b64decAll_group_eq_ok.mpr
      ⟨[v0, v1, v2, v3], rest, lookupAll_eq_some.mpr ?_, b64decAll_b64encAll hlook pad rest hp, ?_⟩
    · simp [hdata, hlook]
    · rw [b64decGroup_of_group3to4 h]
      rfl
termination_by bytes.length

/-- Settles O16: an encoding has its padding in the last positions, as many as its last granule lacks bytes. -/
theorem base64RoundTrip : Obligations.Base64RoundTrip := by
  intro bytes T out h
  have hlength := b64enc_ok_length h
  have hpos := List.length_pos_iff.mpr (b64enc_ok_ne_nil h)
  have hpadding : ∀ i, i < out.length → (out[i]? = T[64]? ↔ out.length ≤ i + (3 - bytes.length % 3) % 3) := by
    intro i hi
    rw [List.getElem?_eq_getElem hi, eq_comm]
    exact (base64EncodePadding bytes T out h i _ (List.getElem?_eq_getElem hi)).1
  have hp : (3 - bytes.length % 3) % 3 < 3 := Nat.mod_lt _ (by decide)
  have hcount := padCount_of_padding_iff hp (by omega) hpadding
  obtain ⟨-, hdistinct, hT, rfl⟩ := b64enc_ok_inv h
  rw [b64dec_run hT hdistinct (b64enc_ok_ne_nil h) (by omega)
    ((misplacedPadding_eq_false_iff_placed hT (by omega)).mpr (placed_of_padding_iff hp hpadding))]
  exact b64decAll_b64encAll (fun v => (sym2sext_eq_some_iff_lut64 hT hdistinct).mpr rfl) _ bytes hcount

/-! ## Encoding a decoding (R149 (d)) -/

/-- R148: `v` with its low `2p` bits cleared. -/
def clearLow (p : Nat) (v : Sext) : Sext := BitVec.ofNat 6 (v.toNat / 4 ^ p * 4 ^ p)

theorem clearLow_toNat (p : Nat) (v : Sext) : (clearLow p v).toNat = v.toNat / 4 ^ p * 4 ^ p :=
  (BitVec.toNat_ofNat _ _).trans (Nat.mod_eq_of_lt ((Nat.div_mul_le_self _ _).trans_lt v.isLt))

theorem clearLow_eq_self {p : Nat} {v : Sext} : clearLow p v = v ↔ v.toNat % 4 ^ p = 0 := by
  rw [← BitVec.toNat_inj, clearLow_toNat]
  exact ⟨fun h => h ▸ Nat.mul_mod_left _ _, fun h => Nat.div_mul_cancel (Nat.dvd_of_mod_eq_zero h)⟩

/-- Re-encoding the bytes of a full group gives its symbols, before those of the rest. -/
theorem b64encAll_b64decGroup_append (sym : Sext → Sym) (pad : Sym) {vs : List Sext} (hvs : vs.length = 4)
    (bytes : List Byte) :
    b64encAll sym pad (b64decGroup vs ++ bytes) = vs.map sym ++ b64encAll sym pad bytes := by
  match vs, hvs with
  | [v0, v1, v2, v3], _ =>
    obtain ⟨⟨c0, c1, c2⟩, h⟩ : ∃ cs, ungroup4to3 v0 v1 v2 v3 = cs := ⟨_, rfl⟩
    simp only [b64decGroup, h, List.cons_append, b64encAll, b64encGroup, ungroup4to3_eq_iff_group3to4_eq.mp h]
    rfl

/-- R144, R128: the bytes of three sextets have these sextets, the last one without the bits that reach no byte. -/
theorem group3to4_of_ungroup4to3_three {v0 v1 v2 : Sext} {c0 c1 c2 : Byte} (h : ungroup4to3 v0 v1 v2 0 = (c0, c1, c2)) :
    group3to4 c0 c1 0 = (v0, v1, clearLow 1 v2, 0) := by
  obtain ⟨h0, h1, -⟩ := ungroup4to3_toNat h
  have hclear := clearLow_toNat 1 v2
  rw [group3to4_eq_iff, ← BitVec.toNat_inj, packSexts_toNat, packBytes_toNat]
  rw [zero_sext_toNat] at h0 h1 ⊢
  rw [zero_byte_toNat]
  omega

/-- R144, R128: the byte of two sextets has these sextets, the last one without the bits that reach no byte. -/
theorem group3to4_of_ungroup4to3_two {v0 v1 : Sext} {c0 c1 c2 : Byte} (h : ungroup4to3 v0 v1 0 0 = (c0, c1, c2)) :
    group3to4 c0 0 0 = (v0, clearLow 2 v1, 0, 0) := by
  obtain ⟨h0, -, -⟩ := ungroup4to3_toNat h
  have hclear := clearLow_toNat 2 v1
  rw [group3to4_eq_iff, ← BitVec.toNat_inj, packSexts_toNat, packBytes_toNat]
  rw [zero_sext_toNat] at h0 ⊢
  rw [zero_byte_toNat]
  omega

/-- Re-encoding the bytes of `4 - p` sextets gives their symbols, the last one's discarded bits cleared, and then the
padding. -/
theorem b64encAll_b64decGroup (sym : Sext → Sym) (pad : Sym) {us : List Sext} (v : Sext) {p : Nat} (hp : p < 3)
    (hus : us.length + p = 3) :
    b64encAll sym pad (b64decGroup (us ++ [v])) = us.map sym ++ sym (clearLow p v) :: List.replicate p pad := by
  obtain rfl | rfl | rfl : p = 0 ∨ p = 1 ∨ p = 2 := by omega
  · have hfull := b64encAll_b64decGroup_append sym pad (vs := us ++ [v]) (by simpa using hus) []
    have hv : clearLow 0 v = v := clearLow_eq_self.mpr (Nat.mod_one _)
    rw [List.append_nil] at hfull
    simp [hfull, hv, b64encAll]
  · obtain ⟨v0, v1, rfl⟩ := List.length_eq_two.mp (Nat.succ.inj hus)
    obtain ⟨⟨c0, c1, c2⟩, h⟩ : ∃ cs, ungroup4to3 v0 v1 v 0 = cs := ⟨_, rfl⟩
    simp only [List.cons_append, List.nil_append, b64decGroup, h, b64encAll, b64encGroup,
      group3to4_of_ungroup4to3_three h]
    rfl
  · obtain ⟨v0, rfl⟩ := List.length_eq_one_iff.mp (Nat.succ.inj (Nat.succ.inj hus))
    obtain ⟨⟨c0, c1, c2⟩, h⟩ : ∃ cs, ungroup4to3 v0 v 0 0 = cs := ⟨_, rfl⟩
    simp only [List.cons_append, List.nil_append, b64decGroup, h, b64encAll, b64encGroup,
      group3to4_of_ungroup4to3_two h]
    rfl

/-- The symbols of the values found are the symbols looked up. -/
theorem map_of_lookupAll {ν : Type} {look : Sym → Option ν} {sym : ν → Sym}
    (hsym : ∀ {x v}, look x = some v → sym v = x) {ss : List Sym} {vs : List ν} (h : lookupAll look ss = some vs) :
    vs.map sym = ss := by
  induction ss generalizing vs with
  | nil =>
    cases h
    rfl
  | cons s ss ih =>
    rw [lookupAll] at h
    split at h
    · rename_i v ws hv hws
      cases h
      rw [List.map_cons, hsym hv, ih hws]
    · cases h

/-- The loop of the encoder on the bytes of the decoder's: only the last group can differ, by the cleared bits of its
last data symbol, and by the `p` symbols that the decoder does not read. -/
theorem b64encAll_of_b64decAll {look : Sym → Option Sext} {sym : Sext → Sym}
    (hsym : ∀ {x v}, look x = some v → sym v = x) (pad : Sym) {p : Fin 3} {syms : List Sym} {out : List Byte}
    (hne : syms ≠ []) (hmod : syms.length % 4 = 0) (h : b64decAll look p syms = .ok out) :
    ∃ front v tail, syms = front ++ sym v :: tail ∧ tail.length = p.val ∧
      b64encAll sym pad out = front ++ sym (clearLow p.val v) :: List.replicate p.val pad := by
  match syms, hmod with
  | s0 :: s1 :: s2 :: s3 :: rest, hmod =>
    obtain ⟨vs, bytes, hvs, hbytes, rfl⟩ := b64decAll_group_eq_ok.mp h
    have hlength := lookupAll_length hvs
    have hmap := map_of_lookupAll hsym hvs
    by_cases hrest : rest = []
    · subst hrest
      cases hbytes
      rw [if_pos rfl] at hlength hmap
      simp only [List.length_take, List.length_cons, List.length_nil] at hlength
      obtain rfl | ⟨us, v, rfl⟩ := List.eq_nil_or_concat' vs
      · rw [List.length_nil] at hlength
        omega
      rw [List.length_append, List.length_singleton] at hlength
      refine ⟨us.map sym, v, [s0, s1, s2, s3].drop (4 - p.val), ?_, ?_, ?_⟩
      · rw [List.append_cons, ← List.map_singleton, ← List.map_append, hmap, List.take_append_drop]
      · rw [List.length_drop]
        exact Nat.sub_sub_self (show p.val ≤ 4 by omega)
      · rw [List.append_nil, b64encAll_b64decGroup sym pad v p.isLt (by omega)]
    · obtain ⟨front, w, tail, hfront, htail, hback⟩ := b64encAll_of_b64decAll hsym pad hrest
        (by simp only [List.length_cons] at hmod; omega) hbytes
      rw [if_neg hrest] at hlength hmap
      refine ⟨s0 :: s1 :: s2 :: s3 :: front, w, tail, by rw [hfront]; rfl, htail, ?_⟩
      rw [b64encAll_b64decGroup_append sym pad hlength, hmap, hback]
      rfl
termination_by syms.length

/-- R26: no two sextets share a symbol of a valid table. -/
theorem lut64_inj {T : List Sym} (hlen : T.length = 65) (hT : distinct T = true) {v w : Sext} :
    lut64 T hlen v = lut64 T hlen w ↔ v = w := by
  constructor
  · intro h
    have hv := (sym2sext_eq_some_iff_lut64 hlen hT).mpr h
    have hw := (sym2sext_eq_some_iff_lut64 hlen hT).mpr (rfl : _ = lut64 T hlen w)
    exact Option.some_inj.mp (hv.symm.trans hw)
  · exact congrArg _

/-- R149 (d): re-encoding a decoding gives the input back but for the last data symbol, whose discarded bits are
cleared. -/
theorem b64enc_of_b64dec {syms T : List Sym} {out : List Byte} (h : b64dec syms T = .ok out) :
    ∃ (hT : T.length = 65) (front : List Sym) (v : Sext) (tail : List Sym),
      syms = front ++ lut64 T hT v :: tail ∧ front.length = syms.length - 1 - (padCount T syms).val ∧
        b64enc out T = .ok (front ++ lut64 T hT (clearLow (padCount T syms).val v) :: tail) := by
  obtain ⟨hne, hT, hdistinct, hmod, hpadding, hrun⟩ := b64dec_ok_inv h
  have hpos := List.length_pos_iff.mpr hne
  have hplaced := (misplacedPadding_eq_false_iff_placed hT (by omega)).mp hpadding
  obtain ⟨front, v, tail, hsyms, htail, hback⟩ :=
    b64encAll_of_b64decAll (sym2sext_eq_some_iff_lut64 hT hdistinct).mp (padSym T hT) hne hmod hrun
  have hlength := congrArg List.length hsyms
  rw [List.length_append, List.length_cons, htail] at hlength
  have hreplicate : tail = List.replicate (padCount T syms).val (padSym T hT) := by
    refine List.eq_replicate_iff.mpr ⟨htail, fun x hx => ?_⟩
    obtain ⟨i, hi, rfl⟩ := List.mem_iff_getElem.mp hx
    have hpad := (padding_iff_of_placed (by omega) hplaced (i := front.length + (i + 1)) (by omega)).mpr (by omega)
    have hentry : syms[front.length + (i + 1)]? = some tail[i] := by
      rw [hsyms, List.getElem?_append_right (by omega), Nat.add_sub_cancel_left, List.getElem?_cons_succ,
        List.getElem?_eq_getElem hi]
    rwa [hentry, pad_spec T hT, Option.some_inj] at hpad
  refine ⟨hT, front, v, tail, hsyms, by omega, ?_⟩
  rw [b64enc_ok hT hdistinct (b64dec_ok_ne_nil h), hback, ← hreplicate]

/-- Settles O17: the input is a re-encoding exactly when clearing the discarded bits changes nothing. -/
theorem base64ReencodesCanonicalInput : Obligations.Base64ReencodesCanonicalInput := by
  intro syms T out h
  obtain ⟨-, -, hdistinct, -⟩ := b64dec_ok_inv h
  obtain ⟨hT, front, v, tail, hsyms, hfront, hback⟩ := b64enc_of_b64dec h
  have hlast : syms[syms.length - 1 - (padCount T syms).val]? = some (lut64 T hT v) := by
    rw [← hfront, hsyms, List.getElem?_append_right le_rfl, Nat.sub_self, List.getElem?_cons_zero]
  have hcanonical : DiscardedBitsZero T syms ↔ clearLow (padCount T syms).val v = v := by
    rw [clearLow_eq_self, DiscardedBitsZero, hlast]
    constructor
    · exact fun hzero => hzero _ v rfl ((sym2sext_eq_some_iff_lut64 hT hdistinct).mpr rfl)
    · rintro hzero _ w ⟨⟩ hw
      rw [sym2sext_eq_some_iff_lut64 hT hdistinct, lut64_inj hT hdistinct] at hw
      exact hw ▸ hzero
  have hsame : ∀ x, front ++ x :: tail = syms ↔ x = lut64 T hT v := fun x => by
    rw [hsyms, List.append_cancel_left_eq, List.cons.injEq, and_iff_left rfl]
  rw [hback, hcanonical, ← lut64_inj hT hdistinct, Except.ok.injEq, hsame]

/-! ## The granule step of U3 (R146) and its action on a state (R160) -/

theorem unitAct_u3 {s : State} {r : Dec64Unit} (h : actU3 s.u3 = .ok r) :
    unitAct .u3 s = .next { s with u3 := r } := by
  simp [unitAct, h]

/-- The lookup of the `k` symbols from position `i` on, from the value of each. -/
theorem lookupAll_take_drop {ν : Type} {look : Sym → Option ν} {syms : List Sym} {i k : Nat} {vs : List ν}
    (hlength : vs.length = k) (h : ∀ j v, vs[j]? = some v → ∃ x, syms[i + j]? = some x ∧ look x = some v) :
    lookupAll look ((syms.drop i).take k) = some vs := by
  refine lookupAll_eq_some.mpr (List.ext_getElem? fun j => ?_)
  cases hj : vs[j]? with
  | none =>
    have hk : k ≤ j := hlength ▸ List.getElem?_eq_none_iff.mp hj
    simp [hj, List.getElem?_take_eq_none hk]
  | some v =>
    obtain ⟨x, hx, hlook⟩ := h j v hj
    have hk : j < k := hlength ▸ (List.getElem?_eq_some_iff.mp hj).1
    simp [hj, List.getElem?_take_of_lt hk, hx, hlook]

/-- Settles O29: with a granule left the action is the granule step on its data symbols, with none left it is FINISH. -/
theorem granuleOfB64dec : Obligations.GranuleOfB64dec := by
  constructor
  · intro s T inp rl p g out hu3 hg m
    have hm : dataSyms g (inp.length / 4) p = m := rfl
    have hrange : 2 ≤ m ∧ m ≤ 4 := dataSyms_range g (inp.length / 4) p
    have hact := actU3_busy_lt (T := T) (out := out) (p := p) (rl := rl) (show 4 * g + 4 ≤ inp.length by omega) hg
    rw [← hu3, hm] at hact
    constructor
    · rintro ⟨i, x, hi, hx, hunknown⟩
      have hmem : x ∈ (inp.drop (4 * g)).take m :=
        List.mem_of_getElem? (i := i) (by rw [List.getElem?_take_of_lt hi, List.getElem?_drop, hx])
      rw [lookupAll_eq_none.mpr ⟨x, hmem, by rw [hunknown]; rfl⟩] at hact
      exact unitAct_u3 hact
    · intro vs hlength hvs
      have hknown : lookupAll (fun x => (rl.lookup x).bind sextOf) ((inp.drop (4 * g)).take m) = some vs := by
        refine lookupAll_take_drop hlength fun i v hv => ?_
        obtain ⟨x, hx, hlookup⟩ := hvs i v hv
        exact ⟨x, hx, by rw [hlookup]; rfl⟩
      rw [hknown] at hact
      have hgroup := b64decGroup_eq_take (vs := vs) (by simp; omega)
      rw [hlength] at hgroup
      simp only [hgroup] at hact
      exact unitAct_u3 hact
  · rintro s T inp ⟨pos, out, -, -, hne, hmod, -, -, hrun, hu3⟩ hend
    obtain rfl : pos = inp.length / 4 := by simpa [hu3, busyRec] using hend
    rw [if_pos rfl, List.take_of_length_le (by omega)] at hrun
    exact ⟨out, by rw [hu3]; rfl, b64decAll_length hrun hmod hne, unitAct_u3 (by rw [hu3]; exact actU3_busy_eq)⟩

/-! ## START and the actions of U3 to the end (R149 (e)) -/

/-- A U3 that serves a transaction and has no action left has its outcome: BUSY, it would need FINISH at least. -/
theorem settled64_of_servesU3 {T inp : List Sym} {r : Dec64Unit} (h : ServesU3 T inp r)
    (hwork : recWork r.toUnitRec = 0) : r = settled64 (b64dec inp T) := by
  obtain ⟨_, _, _, _, _, _, _, _, _, rfl⟩ | hdone := h
  · exact absurd hwork (Nat.succ_ne_zero _)
  · exact hdone

/-- An action of a U3 that serves a transaction takes one off the work left, if there is any, or all of it. -/
theorem unitAct_u3_servesU3 {T inp : List Sym} {s : State} (h : ServesU3 T inp s.u3) :
    ∃ t, unitAct .u3 s = .next t ∧ ServesU3 T inp t.u3 ∧ unitWork .u3 t ≤ unitWork .u3 s - 1 := by
  obtain hbusy | hdone := h
  · obtain ⟨r, hact, hserves, hprogress⟩ := actU3_serves hbusy
    refine ⟨_, unitAct_u3 hact, hserves, ?_⟩
    change recWork r.toUnitRec ≤ recWork s.u3.toUnitRec - 1
    omega
  · have hact : actU3 s.u3 = .ok s.u3 := by simp [actU3, hdone, settled64, settledDec, settled_phase]
    refine ⟨_, unitAct_u3 hact, .inr hdone, ?_⟩
    change recWork s.u3.toUnitRec ≤ recWork s.u3.toUnitRec - 1
    simp [hdone, settled64, settledDec, recWork_settled]

/-- START leaves at most a granule for each four symbols, and FINISH. -/
theorem recWork_startU3_le (T inp : List Sym) : recWork (startU3 T inp).toUnitRec ≤ inp.length / 4 + 1 := by
  unfold startU3
  cases startReason 65 4 inp.length T (misplacedPadding T inp) with
  | some r => exact Nat.zero_le _
  | none => exact le_rfl

/-- R161: an IDLE U3 takes operands that the ports can carry. -/
theorem exec_b64dec_taken {d : Bool} {s : State} (hreset : s.wasReset = true) (hidle : s.u3.phase = .idle)
    (hfit : DecodeOperandsFit d s) :
    exec (.b64dec d) s = .next { s with u3 := startU3 (tableOperand64 d s.ports) s.ports.inS } :=
  startGate_taken hreset hidle ((decodeRefusal_none d s).mpr hfit)

/-- Settles O51: START serves the transaction of its operands, and `n/4 + 1` moves leave U3 no work. -/
theorem b64decMachineIsTheFunction : Obligations.B64decMachineIsTheFunction := by
  intro d s k hreset hidle hfit hk
  have hstart := exec_b64dec_taken hreset hidle hfit
  have hserves := startU3_serves (tableOperand64 d s.ports) s.ports.inS
  have hwork := (recWork_startU3_le (tableOperand64 d s.ports) s.ports.inS).trans hk
  obtain ⟨t, hrun, htserves, hdone, hothers⟩ :=
    run_unitMoves (u := .u3) (Serves := fun x => ServesU3 (tableOperand64 d s.ports) s.ports.inS x.u3)
      (fun hsame h => hsame ▸ h) unitAct_u3_servesU3 k
      (s := { s with u3 := startU3 (tableOperand64 d s.ports) s.ports.inS }) hreset hserves hwork
  exact ⟨_, t, hstart, hrun, settled64_of_servesU3 htserves hdone, (hothers .u0 (by decide)).symm,
    (hothers .u1 (by decide)).symm, (hothers .u2 (by decide)).symm⟩

end Sys2Proof.Machine
end

section
/-! PROOFS. The control family: START (R161, R162), FINISH (R164), the host's moves (R165, R166, R172), the order of the
units' actions (R168), and what every schedule comes to (R168, R171, R211). -/

namespace Sys2Proof.Machine

open Sys2Proof.Safety

/-! ## Comparing states unit by unit -/

theorem sameAround_symm {s t : State} (h : SameAround s t) : SameAround t s := by
  obtain ⟨hports, hrun, hturns, hreset, hparams⟩ := h
  exact ⟨hports.symm, hrun.symm, hturns.symm, hreset.symm, hparams.symm⟩

theorem sameAround_trans {s t r : State} (h : SameAround s t) (k : SameAround t r) : SameAround s r := by
  obtain ⟨hports, hrun, hturns, hreset, hparams⟩ := h
  obtain ⟨kports, krun, kturns, kreset, kparams⟩ := k
  exact ⟨hports.trans kports, hrun.trans krun, hturns.trans kturns, hreset.trans kreset, hparams.trans kparams⟩

/-- A state is its four unit records and what stands around them. -/
theorem eq_of_sameAround_of_sameUnit {s t : State} (haround : SameAround s t) (hunits : ∀ u, SameUnit u s t) :
    s = t := by
  obtain ⟨hports, hrun, hturns, hreset, hparams⟩ := haround
  have h0 : s.u0 = t.u0 := hunits .u0
  have h1 : s.u1 = t.u1 := hunits .u1
  have h2 : s.u2 = t.u2 := hunits .u2
  have h3 : s.u3 = t.u3 := hunits .u3
  cases s
  cases t
  simp_all only

/-! ## What a step can do to one unit -/

/-- A unit that is not BUSY has no action: offered one, it stays as it is (log 4). -/
theorem unitAct_of_not_busy {u : UnitId} {s : State} (h : s.phase u ≠ .busy) : unitAct u s = .next s := by
  cases u with
  | u0 => exact unitAct_u0 (if_neg h)
  | u1 => exact unitAct_u1 (if_neg h)
  | u2 => exact unitAct_u2 (if_neg h)
  | u3 => exact unitAct_u3 (if_neg h)

/-- A command leaves a unit that is not IDLE. -/
theorem exec_sameUnit_of_not_idle {i : Instr} {s t : State} {u : UnitId} (h : exec i s = .next t)
    (hidle : s.phase u ≠ .idle) : SameUnit u s t := by
  by_cases hu : u = unitOf i
  · subst hu
    obtain ⟨-, ⟨-, rfl⟩ | ⟨htaken, -⟩⟩ := exec_next h
    · exact sameUnit_refl _ t
    · exact absurd htaken hidle
  · exact exec_sameUnit h hu

/-- The action of some unit, seen from unit `u`: nothing, or its own action. -/
theorem sameUnit_or_own_action {u v : UnitId} {s x t : State} (hx : SameUnit u s x) (h : unitAct v x = .next t) :
    SameUnit u s t ∨ ∃ x, SameUnit u s x ∧ unitAct u x = .next t := by
  by_cases hv : u = v
  · exact .inr ⟨x, hx, hv ▸ h⟩
  · exact .inl (sameUnit_trans hx (unitAct_sameUnit h hv))

/-- A step that does not release a unit which is not IDLE leaves its record, or is the unit's own action on it. -/
theorem step_sameUnit_or_own_action {u : UnitId} {s t : State} (h : step s = .next t) (hkeep : ¬ Releases u s)
    (hidle : s.phase u ≠ .idle) : SameUnit u s t ∨ ∃ x, SameUnit u s x ∧ unitAct u x = .next t := by
  obtain ⟨p, rest, hrun, -, hmove⟩ | ⟨v, rest, -, -, hact⟩ | ⟨-, -, hfree⟩ := step_cases h
  · obtain ⟨hreset, hack⟩ : p.reset = false ∧ p.ack u = false := by
      have hnone : ¬ (p.reset = true ∨ p.ack u = true) := fun hp => hkeep ⟨p, rest, hrun, hp⟩
      simpa using hnone
    have hsignals : SameUnit u s (hostSignals { s with ports := p, run := rest }) :=
      (hostSignals_ack (s := { s with ports := p, run := rest }) hreset u).2 (by simp [hack])
    obtain ⟨-, hexec⟩ | ⟨-, rfl⟩ := hmove
    · exact .inl (sameUnit_trans hsignals (exec_sameUnit_of_not_idle hexec (sameUnit_phase hsignals ▸ hidle)))
    · exact .inl hsignals
  · exact sameUnit_or_own_action (x := { s with run := rest }) (sameUnit_refl u s) hact
  · obtain ⟨-, rfl⟩ | ⟨v, -, hact⟩ := hfree
    · exact .inl (sameUnit_refl u t)
    · exact sameUnit_or_own_action (x := { s with turns := s.turns + 1 }) (sameUnit_refl u s) hact

/-! ## START (R161, R162) -/

theorem reasonCode_toNat_inj {r r' : Reason} : (reasonCode r).toNat = (reasonCode r').toNat → r = r' := by
  cases r <;> cases r' <;> decide

theorem leastCondition_unique {cond : Nat → Prop} {k l : Nat} (hk : LeastCondition cond k)
    (hl : LeastCondition cond l) : k = l := by
  obtain ⟨hk, hbelow_k⟩ := hk
  obtain ⟨hl, hbelow_l⟩ := hl
  by_contra hne
  obtain hlt | hlt := Nat.lt_or_gt_of_ne hne
  · exact hbelow_l k hlt hk
  · exact hbelow_k l hlt hl

section StartReason

variable {L gran n : Nat} {T : List Sym} {misplaced : Bool} {placed : Prop}
  (hplaced : n ≠ 0 → T.length = L → n % gran = 0 → (misplaced = false ↔ placed))

include hplaced

/-- R161: what START reports is the least condition that holds, and it reports none when none holds. The padding is
looked at only where conditions 1, 2 and 4 do not hold, so only there `misplaced` has to mean condition 5. -/
theorem startReason_reports :
    (∀ r, startReason L gran n T misplaced = some r →
      LeastCondition (StartCondition L gran n T placed) (reasonCode r).toNat) ∧
    (startReason L gran n T misplaced = none → NoCondition (StartCondition L gran n T placed)) := by
  have below1 : ∀ k < 1, ¬ StartCondition L gran n T placed k := by simp [StartCondition]
  unfold startReason
  split_ifs with hn hlen hdup hmod hmis
  · exact ⟨by rintro _ ⟨⟩; exact ⟨hn, below1⟩, nofun⟩
  all_goals have below2 := Nat.forall_lt_succ_right.mpr ⟨below1, hn⟩
  · exact ⟨by rintro _ ⟨⟩; exact ⟨hlen, below2⟩, nofun⟩
  all_goals
    have below3 := Nat.forall_lt_succ_right.mpr ⟨below2, hlen⟩
    rw [not_not] at hlen
    have hrepeat := cond3_iff L T hlen
  · exact ⟨by rintro _ ⟨⟩; exact ⟨hrepeat.mpr (by simpa using hdup), below3⟩, nofun⟩
  all_goals have below4 := Nat.forall_lt_succ_right.mpr ⟨below3, hrepeat.not.mpr (by simpa using hdup)⟩
  · exact ⟨by rintro _ ⟨⟩; exact ⟨hmod, below4⟩, nofun⟩
  all_goals
    have below5 := Nat.forall_lt_succ_right.mpr ⟨below4, hmod⟩
    have hpadding := hplaced hn hlen (not_not.mp hmod)
  · exact ⟨by rintro _ ⟨⟩; exact ⟨hpadding.not.mp (by simpa using hmis), below5⟩, nofun⟩
  · refine ⟨nofun, fun _ k => ?_⟩
    match k with
    | 0 | 1 | 2 | 3 | 4 => exact below5 _ (by decide)
    | 5 => exact not_not.mpr (hpadding.mp (by simpa using hmis))
    | k + 6 => exact id

theorem startReason_eq_some_iff {r : Reason} : startReason L gran n T misplaced = some r ↔
    LeastCondition (StartCondition L gran n T placed) (reasonCode r).toNat := by
  obtain ⟨hsome, hnone⟩ := startReason_reports hplaced
  refine ⟨hsome r, fun hleast => ?_⟩
  cases hreason : startReason L gran n T misplaced with
  | none => exact absurd hleast.1 (hnone hreason _)
  | some r' => rw [reasonCode_toNat_inj (leastCondition_unique hleast (hsome r' hreason))]

theorem startReason_eq_none_iff : startReason L gran n T misplaced = none ↔
    NoCondition (StartCondition L gran n T placed) := by
  obtain ⟨hsome, hnone⟩ := startReason_reports hplaced
  refine ⟨hnone, fun hno => ?_⟩
  cases hreason : startReason L gran n T misplaced with
  | none => rfl
  | some r => exact absurd (hsome r hreason).1 (hno _)

end StartReason

/-- The units without padding: condition 5 never holds. -/
theorem no_padding_misplaced {L gran n : Nat} {T : List Sym} :
    n ≠ 0 → T.length = L → n % gran = 0 → (false = false ↔ True) := fun _ _ _ => iff_of_true rfl trivial

/-- R142 where START looks at the padding: the input is a whole number of groups, and not empty. -/
theorem misplacedPadding_of_start {T inp : List Sym} (hne : inp.length ≠ 0) (hlen : T.length = 65)
    (hmod : inp.length % 4 = 0) : misplacedPadding T inp = false ↔ PaddingPlaced T inp :=
  misplacedPadding_eq_false_iff_placed hlen (by omega)

theorem exec_dropped {i : Instr} {s : State} (hmark : s.wasReset = true) (hidle : s.phase (unitOf i) ≠ .idle) :
    exec i s = .next s := by
  cases i <;> exact startGate_dropped hmark hidle

/-- Settles O22: a unit that is not IDLE drops the command, and an IDLE one takes what `startReason` reports. -/
theorem startTakesTheCommandOrFails : Obligations.StartTakesTheCommandOrFails := by
  refine ⟨fun i s => exec_dropped, ?_, ?_, ?_, ?_⟩
  · intro d s hmark hidle hfit T inp cond
    have htaken : exec (.b16enc d) s = .next { s with u0 := startU0 T inp } := exec_b16enc_taken hmark hidle hfit
    refine ⟨fun r hr => ?_, fun hno => ?_⟩
    · rw [htaken, startU0, (startReason_eq_some_iff no_padding_misplaced).mpr hr]; rfl
    · rw [htaken, startU0, (startReason_eq_none_iff no_padding_misplaced).mpr hno]; rfl
  · intro d s hmark hidle hfit T inp cond
    have htaken : exec (.b16dec d) s = .next { s with u1 := startU1 T inp } := exec_b16dec_taken hmark hidle hfit
    refine ⟨fun r hr => ?_, fun hno => ⟨buildRlut16 T, lookup_buildRlut16 T, ?_⟩⟩
    · rw [htaken, startU1, (startReason_eq_some_iff no_padding_misplaced).mpr hr]; rfl
    · rw [htaken, startU1, (startReason_eq_none_iff no_padding_misplaced).mpr hno]; rfl
  · intro d s hmark hidle hfit T inp cond
    have htaken : exec (.b64enc d) s = .next { s with u2 := startU2 T inp } := exec_b64enc_taken hmark hidle hfit
    refine ⟨fun r hr => ?_, fun hno => ?_⟩
    · rw [htaken, startU2, (startReason_eq_some_iff no_padding_misplaced).mpr hr]; rfl
    · rw [htaken, startU2, (startReason_eq_none_iff no_padding_misplaced).mpr hno]; rfl
  · intro d s hmark hidle hfit T inp n cond
    have htaken : exec (.b64dec d) s = .next { s with u3 := startU3 T inp } := exec_b64dec_taken hmark hidle hfit
    refine ⟨fun r hr => ?_, fun hno => ⟨buildRlut64 T, padCount T inp, lookup_buildRlut64 T, padCount_val T inp, ?_⟩⟩
    · rw [htaken, startU3, (startReason_eq_some_iff misplacedPadding_of_start).mpr hr]; rfl
    · rw [htaken, startU3, (startReason_eq_none_iff misplacedPadding_of_start).mpr hno]; rfl

/-- START's gate on two states that agree on the RESET mark and on unit `u`, before and after the START is taken:
dropped in both, or taken in both. -/
theorem startGate_of_sameUnit {u : UnitId} {s s' t taken taken' : State} {ph : Phase} {bad : Option Refusal}
    (hmark : s.wasReset = s'.wasReset) (hunit : SameUnit u s s') (h : startGate s ph bad taken = .next t)
    (htaken : SameUnit u taken taken') : ∃ t', startGate s' ph bad taken' = .next t' ∧ SameUnit u t t' := by
  obtain ⟨hreset, ⟨hbusy, rfl⟩ | ⟨hidle, hfit, rfl⟩⟩ := startGate_next h
  · exact ⟨s', startGate_dropped (hmark ▸ hreset) hbusy, hunit⟩
  · exact ⟨taken', startGate_taken (hmark ▸ hreset) hidle hfit, htaken⟩

/-- R162: a START reads its own unit's record, and of the rest only what stands around the units. -/
theorem exec_of_sameUnit {i : Instr} {s s' t : State} (hunit : SameUnit (unitOf i) s s') (haround : SameAround s s')
    (h : exec i s = .next t) : ∃ t', exec i s' = .next t' ∧ SameUnit (unitOf i) t t' := by
  obtain ⟨hports, -, -, hmark, hparams⟩ := haround
  cases i with
  | b16enc d =>
    rw [exec, execB16enc, show s.u0 = s'.u0 from hunit, hports, hparams] at h
    exact startGate_of_sameUnit hmark hunit h rfl
  | b16dec d =>
    rw [exec, execB16dec, show s.u1 = s'.u1 from hunit, hports, hparams] at h
    exact startGate_of_sameUnit hmark hunit h rfl
  | b64enc d =>
    rw [exec, execB64enc, show s.u2 = s'.u2 from hunit, hports, hparams] at h
    exact startGate_of_sameUnit hmark hunit h rfl
  | b64dec d =>
    rw [exec, execB64dec, show s.u3 = s'.u3 from hunit, hports, hparams] at h
    exact startGate_of_sameUnit hmark hunit h rfl

/-- R35: `ready` is low outside IDLE. -/
theorem ready_of_not_idle {u : UnitId} {s : State} (h : s.phase u ≠ .idle) : s.ready u = false := by
  cases u <;> exact beq_eq_false_iff_ne.mpr h

/-- Settles O23: the gate drops the command, and it looks at no other unit. -/
theorem startToABusyUnitIsDropped : Obligations.StartToABusyUnitIsDropped :=
  ⟨fun _ _ hmark hidle => ⟨exec_dropped hmark hidle, ready_of_not_idle hidle⟩,
    fun _ _ _ _ hunit haround h => exec_of_sameUnit hunit haround h⟩

/-! ## The actions of two units (R164, R168) -/

/-- R164: at the end of a transaction OUT holds the loop's result on the whole input, the function's result. -/
theorem b16enc_of_busyU0_end {T : List Sym} {inp : List Byte} {r : EncUnit} (h : BusyU0 T inp r)
    (hend : r.pos = r.ngran) : ∃ out, r.OUT = some out ∧ b16enc inp T = .ok out := by
  obtain ⟨hT, pos, hdistinct, hne, -, rfl⟩ := h
  obtain rfl : pos = inp.length := by simpa [busyRec] using hend
  exact ⟨_, rfl, by rw [List.take_length, b16enc_ok hT hdistinct hne]⟩

theorem b16dec_of_busyU1_end {T inp : List Sym} {r : Dec16Unit} (h : BusyU1 T inp r) (hend : r.pos = r.ngran) :
    ∃ out, r.OUT = some out ∧ b16dec inp T = .ok out := by
  obtain ⟨pos, out, hT, hdistinct, hne, hmod, -, hrun, rfl⟩ := h
  obtain rfl : pos = inp.length / 2 := by simpa [busyRec] using hend
  rw [List.take_of_length_le (by omega)] at hrun
  exact ⟨out, rfl, by rw [b16dec_run hT hdistinct hne hmod, hrun]⟩

theorem b64enc_of_busyU2_end {T : List Sym} {inp : List Byte} {r : EncUnit} (h : BusyU2 T inp r)
    (hend : r.pos = r.ngran) : ∃ out, r.OUT = some out ∧ b64enc inp T = .ok out := by
  obtain ⟨hT, pos, hdistinct, hne, -, rfl⟩ := h
  obtain rfl : pos = (inp.length + 2) / 3 := by simpa [busyRec] using hend
  exact ⟨_, rfl, by rw [List.take_of_length_le (by omega), b64enc_ok hT hdistinct hne]⟩

theorem b64dec_of_busyU3_end {T inp : List Sym} {r : Dec64Unit} (h : BusyU3 T inp r) (hend : r.pos = r.ngran) :
    ∃ out, r.OUT = some out ∧ b64dec inp T = .ok out := by
  obtain ⟨pos, out, hT, hdistinct, hne, hmod, hpadding, -, hrun, rfl⟩ := h
  obtain rfl : pos = inp.length / 4 := by simpa [busyRec] using hend
  rw [if_pos rfl, List.take_of_length_le (by omega)] at hrun
  exact ⟨out, rfl, by rw [b64dec_run hT hdistinct hne hmod hpadding, hrun]⟩

/-- Settles O30: with no granule left the action is FINISH, and OUT holds the loop's result on the whole input. -/
theorem finishGivesTheWholeResult : Obligations.FinishGivesTheWholeResult := by
  refine ⟨?_, ?_, ?_, ?_, fun _ _ _ => b16enc_of_busyU0_end, fun _ _ _ => b16dec_of_busyU1_end,
    fun _ _ _ => b64enc_of_busyU2_end, fun _ _ _ => b64dec_of_busyU3_end⟩
  · exact fun s T inp n out hu => unitAct_u0 (hu ▸ actU0_busy_eq)
  · exact fun s T inp n out rl hu => unitAct_u1 (hu ▸ actU1_busy_eq)
  · exact fun s T inp n out hu => unitAct_u2 (hu ▸ actU2_busy_eq)
  · exact fun s T inp n out rl p hu => unitAct_u3 (hu ▸ actU3_busy_eq)

/-- A unit's action reads that unit's record only. -/
theorem unitAct_of_sameUnit {u : UnitId} {s x t : State} (h : SameUnit u s x) (hact : unitAct u s = .next t) :
    ∃ y, unitAct u x = .next y ∧ SameUnit u t y := by
  have hput := unitAct_next hact
  cases u with
  | u0 => obtain ⟨r, hr, rfl⟩ := hput; exact ⟨_, unitAct_u0 (h ▸ hr), rfl⟩
  | u1 => obtain ⟨r, hr, rfl⟩ := hput; exact ⟨_, unitAct_u1 (h ▸ hr), rfl⟩
  | u2 => obtain ⟨r, hr, rfl⟩ := hput; exact ⟨_, unitAct_u2 (h ▸ hr), rfl⟩
  | u3 => obtain ⟨r, hr, rfl⟩ := hput; exact ⟨_, unitAct_u3 (h ▸ hr), rfl⟩

/-- Settles O32: each action reads and changes its own unit's record only, so in both orders each finds the record it
found in the other. -/
theorem unitActionsCommute : Obligations.UnitActionsCommute := by
  intro u v s s1 s2 huv hu hv
  obtain ⟨s1', hv', hsame_v⟩ := unitAct_of_sameUnit (sameUnit_symm (unitAct_sameUnit hu huv.symm)) hv
  obtain ⟨s2', hu', hsame_u⟩ := unitAct_of_sameUnit (unitAct_sameUnit hv' huv) hu
  refine ⟨s1', hv', ?_⟩
  suffices hs2 : s2 = s2' by rw [hu', hs2]
  have haround := sameAround_trans (unitAct_sameAround hu) (unitAct_sameAround hv)
  have haround' := sameAround_trans (unitAct_sameAround hv') (unitAct_sameAround hu')
  refine eq_of_sameAround_of_sameUnit (sameAround_trans (sameAround_symm haround) haround') fun w => ?_
  by_cases hwu : w = u
  · subst hwu
    exact sameUnit_trans (sameUnit_symm (unitAct_sameUnit hv huv)) hsame_u
  by_cases hwv : w = v
  · subst hwv
    exact sameUnit_trans hsame_v (unitAct_sameUnit hu' hwu)
  · have hsame := sameUnit_trans (unitAct_sameUnit hu hwu) (unitAct_sameUnit hv hwv)
    have hsame' := sameUnit_trans (unitAct_sameUnit hv' hwv) (unitAct_sameUnit hu' hwu)
    exact sameUnit_trans (sameUnit_symm hsame) hsame'

/-! ## The host's signals and moves (R165, R166, R172) -/

/-- R172: after RESET nothing is DONE, so the ACKs of the same move do nothing. -/
theorem hostSignals_eq_of_reset {s : State} (h : s.ports.reset = true) :
    hostSignals s = { State.reset with ports := s.ports, run := s.run, turns := s.turns, params := s.params } := by
  refine eq_of_sameAround_of_sameUnit ?_ fun u => ?_
  · exact ⟨hostSignals_ports s, hostSignals_run s, hostSignals_turns s, by simp [h], hostSignals_params s⟩
  · have hreset := hostSignals_reset h u
    cases u <;> exact hreset

/-- A move that asserts neither `reset` nor an `ack` changes no state by its signals. -/
theorem hostSignals_eq_of_quiet {s : State} (hreset : s.ports.reset = false) (hack : ∀ u, s.ports.ack u = false) :
    hostSignals s = s := by
  refine eq_of_sameAround_of_sameUnit ?_ fun u => ?_
  · exact ⟨hostSignals_ports s, hostSignals_run s, hostSignals_turns s, by simp [hreset], hostSignals_params s⟩
  · exact sameUnit_symm ((hostSignals_ack hreset u).2 (by simp [hack u]))

/-- A host move that has a meaning and presents no command. -/
theorem step_host_signals {s : State} {p : Ports} {rest : List Move} (hrun : s.run = .host p :: rest)
    (hmeant : (p.reset || s.wasReset) = true) (hcmd : p.cmdValid = false) :
    step s = .next (hostSignals { s with ports := p, run := rest }) := by
  rw [step_host hrun, if_neg (by simp [hmeant]), if_neg (by simp [hcmd])]

/-- A host move that has a meaning and presents a command. -/
theorem step_host_command {s : State} {p : Ports} {rest : List Move} (hrun : s.run = .host p :: rest)
    (hmeant : (p.reset || s.wasReset) = true) (hcmd : p.cmdValid = true) :
    step s = exec (decodeCmd p.cmd) (hostSignals { s with ports := p, run := rest }) := by
  rw [step_host hrun, if_neg (by simp [hmeant]), if_pos hcmd]

/-- Settles O36: the move's signals change nothing, so the command runs on the state as it is. -/
theorem stepRunsTheDecodedCommand : Obligations.StepRunsTheDecodedCommand := by
  constructor
  · intro s p rest hmark hrun hcmd hreset hack
    rw [step_host_command hrun (by simp [hmark]) hcmd,
      hostSignals_eq_of_quiet (s := { s with ports := p, run := rest }) hreset hack]
  · intro s u rest hmark hrun
    rw [step_unit hrun, if_neg (by simp [hmark])]

/-- Settles O33: the ACKs are all that the move does, and a DONE unit is not IDLE and has no action. -/
theorem ackReleasesADoneUnit : Obligations.AckReleasesADoneUnit := by
  constructor
  · intro s p rest hmark hrun hreset hcmd
    exact ⟨_, step_host_signals hrun (by simp [hmark]) hcmd,
      hostSignals_ack (s := { s with ports := p, run := rest }) hreset⟩
  · intro s t u h hdone hkeep
    obtain hsame | ⟨x, hsame, hown⟩ := step_sameUnit_or_own_action h hkeep (by simp [hdone])
    · exact hsame
    · have hx : x.phase u ≠ .busy := by simp [← sameUnit_phase hsame, hdone]
      obtain rfl := Host.Outcome.next.inj ((unitAct_of_not_busy hx).symm.trans hown)
      exact hsame

/-- Settles O34: with `reset` asserted the host's signals leave every unit as after RESET. -/
theorem resetReturnsEveryUnit : Obligations.ResetReturnsEveryUnit := by
  intro s p rest hrun hreset hcmd
  have hunits := hostSignals_reset (s := { s with ports := p, run := rest }) hreset
  exact ⟨_, step_host_signals hrun (by simp [hreset]) hcmd, hunits, by simp [hreset], hostSignals_params _,
    hostSignals_run _, fun u hu => sameUnit_trans hu (sameUnit_symm (hunits u))⟩

/-- Settles O35: the command runs on the state that the move's signals leave. -/
theorem hostSignalsActInOrder : Obligations.HostSignalsActInOrder := by
  constructor
  · intro s p rest hrun hreset hcmd
    rw [step_host_command hrun (by simp [hreset]) hcmd,
      hostSignals_eq_of_reset (s := { s with ports := p, run := rest }) hreset]
  · intro s p rest hmark hrun hreset hcmd
    exact ⟨_, step_host_command hrun (by simp [hmark]) hcmd, hostSignals_ports _, hostSignals_run _, hostSignals_turns _,
      by simp [hmark], hostSignals_params _, hostSignals_ack (s := { s with ports := p, run := rest }) hreset⟩

/-! ## Every schedule (R168, R61) -/

/-- A property `Serves` of the record of a unit that is not IDLE, kept by the unit's own action, is kept by every step
that does not release the unit. -/
theorem step_keeps_serves {u : UnitId} {Serves : State → Prop}
    (hrecord : ∀ {s t}, SameUnit u s t → Serves s → Serves t) (hidle : ∀ {s}, Serves s → s.phase u ≠ .idle)
    (hact : ∀ {s}, Serves s → ∃ t, unitAct u s = .next t ∧ Serves t)
    {s t : State} (h : step s = .next t) (hkeep : ¬ Releases u s) (hs : Serves s) : Serves t := by
  obtain hsame | ⟨x, hsame, hown⟩ := step_sameUnit_or_own_action h hkeep (hidle hs)
  · exact hrecord hsame hs
  · obtain ⟨t', hown', ht'⟩ := hact (hrecord hsame hs)
    obtain rfl := Host.Outcome.next.inj (hown'.symm.trans hown)
    exact ht'

theorem ne_idle_of_busy_or_done {ph : Phase} (h : ph = .busy ∨ ph = .done) : ph ≠ .idle := by
  rintro rfl
  simp at h

/-- Settles O43: a unit that serves a transaction is not IDLE, and its own action keeps what it serves. -/
theorem everyScheduleServesTheTransaction : Obligations.EveryScheduleServesTheTransaction := by
  intro s t h
  refine ⟨fun T inp => ?_, fun T inp => ?_, fun T inp => ?_, fun T inp => ?_⟩
  · exact step_keeps_serves (u := .u0) (Serves := fun x => ServesU0 T inp x.u0) (fun hsame hs => hsame ▸ hs)
      (fun hs => ne_idle_of_busy_or_done (servesU0_phase hs))
      (fun hs => let ⟨_, hact, hserves⟩ := actU0_keeps hs; ⟨_, unitAct_u0 hact, hserves⟩) h
  · exact step_keeps_serves (u := .u1) (Serves := fun x => ServesU1 T inp x.u1) (fun hsame hs => hsame ▸ hs)
      (fun hs => ne_idle_of_busy_or_done (servesU1_phase hs))
      (fun hs => let ⟨_, hact, hserves⟩ := actU1_keeps hs; ⟨_, unitAct_u1 hact, hserves⟩) h
  · exact step_keeps_serves (u := .u2) (Serves := fun x => ServesU2 T inp x.u2) (fun hsame hs => hsame ▸ hs)
      (fun hs => ne_idle_of_busy_or_done (servesU2_phase hs))
      (fun hs => let ⟨_, hact, hserves⟩ := actU2_keeps hs; ⟨_, unitAct_u2 hact, hserves⟩) h
  · exact step_keeps_serves (u := .u3) (Serves := fun x => ServesU3 T inp x.u3) (fun hsame hs => hsame ▸ hs)
      (fun hs => ne_idle_of_busy_or_done (servesU3_phase hs))
      (fun hs => let ⟨_, hact, hserves⟩ := actU3_keeps hs; ⟨_, unitAct_u3 hact, hserves⟩) h

/-! ## Progress (R171, R211) -/

/-- A unit that serves a transaction and has no action left is DONE. -/
theorem done_of_servesU0 {T : List Sym} {inp : List Byte} {r : EncUnit} (h : ServesU0 T inp r)
    (hwork : recWork r = 0) : r.phase = .done := by
  rw [settled_of_servesU0 h hwork, settled_phase]

theorem done_of_servesU1 {T inp : List Sym} {r : Dec16Unit} (h : ServesU1 T inp r)
    (hwork : recWork r.toUnitRec = 0) : r.phase = .done := by
  rw [settledDec_of_servesU1 h hwork, settledDec, settled_phase]

theorem done_of_servesU2 {T : List Sym} {inp : List Byte} {r : EncUnit} (h : ServesU2 T inp r)
    (hwork : recWork r = 0) : r.phase = .done := by
  rw [settled_of_servesU2 h hwork, settled_phase]

theorem done_of_servesU3 {T inp : List Sym} {r : Dec64Unit} (h : ServesU3 T inp r)
    (hwork : recWork r.toUnitRec = 0) : r.phase = .done := by
  rw [settled64_of_servesU3 h hwork, settled64, settledDec, settled_phase]

/-- An action takes the BUSY record `r` to `r'`: some work was left, and one action less is left now, or the
transaction has ended with reason 6; and no work is left exactly when `r'` is DONE. -/
def Progress {α β : Type} (r r' : UnitRec α β) : Prop :=
  0 < recWork r ∧ (recWork r' + 1 = recWork r ∨ (r'.phase = .done ∧ r'.reasonOut = some 6)) ∧
    (recWork r' = 0 ↔ r'.phase = .done)

/-- What the granule steps and FINISH do to the work left (`actU0_serves` and the three like it) is progress, when a
record without work is DONE. -/
theorem progress_of_act {α β : Type} {r r' : UnitRec α β} (hbusy : r.phase = .busy)
    (hend : recWork r = 0 → r.phase = .done) (hend' : recWork r' = 0 → r'.phase = .done)
    (hact : (r'.phase = .busy ∧ recWork r' + 1 = recWork r) ∨
      (r'.phase = .done ∧ recWork r' = 0 ∧ (recWork r = 1 ∨ r'.reason = some .unknownSymbol))) : Progress r r' := by
  have hpos : 0 < recWork r := Nat.pos_of_ne_zero fun hzero => by simp [hend hzero] at hbusy
  obtain ⟨hbusy', hless⟩ | ⟨hdone, hzero, hlast⟩ := hact
  · exact ⟨hpos, .inl hless, hend', fun hdone => by simp [hdone] at hbusy'⟩
  · refine ⟨hpos, hlast.imp (fun hone => by omega) fun hsix => ⟨hdone, ?_⟩, iff_of_true hzero hdone⟩
    simp [UnitRec.reasonOut, UnitRec.isDone, hdone, hsix, reasonCode]

/-- R171: under its invariant the action of a BUSY unit answers and makes progress. -/
theorem unitAct_progresses {u : UnitId} {s : State} (hs : UnitInv u s) (hbusy : s.phase u = .busy) :
    0 < unitWork u s ∧ ∃ t, unitAct u s = .next t ∧
      (unitWork u t + 1 = unitWork u s ∨ (t.phase u = .done ∧ t.reason u = some 6)) ∧
      (unitWork u t = 0 ↔ t.phase u = .done) := by
  cases u with
  | u0 =>
    obtain hidle | ⟨T, inp, hb | hdone⟩ := hs
    · simp [State.phase, hidle] at hbusy
    · obtain ⟨r, hact, hserves, hwork⟩ := actU0_serves hb
      obtain ⟨hpos, hprogress⟩ :=
        progress_of_act hbusy (done_of_servesU0 (.inl hb)) (done_of_servesU0 hserves) hwork
      exact ⟨hpos, _, unitAct_u0 hact, hprogress⟩
    · simp [State.phase, hdone, settled_phase] at hbusy
  | u1 =>
    obtain hidle | ⟨T, inp, hb | hdone⟩ := hs
    · simp [State.phase, hidle] at hbusy
    · obtain ⟨r, hact, hserves, hwork⟩ := actU1_serves hb
      obtain ⟨hpos, hprogress⟩ :=
        progress_of_act hbusy (done_of_servesU1 (.inl hb)) (done_of_servesU1 hserves) hwork
      exact ⟨hpos, _, unitAct_u1 hact, hprogress⟩
    · simp [State.phase, hdone, settledDec, settled_phase] at hbusy
  | u2 =>
    obtain hidle | ⟨T, inp, hb | hdone⟩ := hs
    · simp [State.phase, hidle] at hbusy
    · obtain ⟨r, hact, hserves, hwork⟩ := actU2_serves hb
      obtain ⟨hpos, hprogress⟩ :=
        progress_of_act hbusy (done_of_servesU2 (.inl hb)) (done_of_servesU2 hserves) hwork
      exact ⟨hpos, _, unitAct_u2 hact, hprogress⟩
    · simp [State.phase, hdone, settled_phase] at hbusy
  | u3 =>
    obtain hidle | ⟨T, inp, hb | hdone⟩ := hs
    · simp [State.phase, hidle] at hbusy
    · obtain ⟨r, hact, hserves, hwork⟩ := actU3_serves hb
      obtain ⟨hpos, hprogress⟩ :=
        progress_of_act hbusy (done_of_servesU3 (.inl hb)) (done_of_servesU3 hserves) hwork
      exact ⟨hpos, _, unitAct_u3 hact, hprogress⟩
    · simp [State.phase, hdone, settled64, settledDec, settled_phase] at hbusy

/-- Settles O44: a BUSY unit's record serves a transaction, and its action is a granule step, a failure or FINISH. -/
theorem aBusyUnitAlwaysProgresses : Obligations.ABusyUnitAlwaysProgresses :=
  fun _ u hs hbusy => unitAct_progresses (unitsInv_iff.mp hs u) hbusy

/-! ## The end of every run (R168, R171) -/

/-- Less work in one unit, and the others as before, is less work in all. -/
theorem work_lt_of_frame {u : UnitId} {s t : State} (hframe : ∀ v, v ≠ u → SameUnit v s t)
    (hu : unitWork u t < unitWork u s) : work t < work s := by
  have hothers : ∀ v, v ≠ u → unitWork v t = unitWork v s := fun v hv => (unitWork_of_sameUnit (hframe v hv)).symm
  unfold work
  cases u with
  | u0 => rw [hothers .u1 (by decide), hothers .u2 (by decide), hothers .u3 (by decide)]; omega
  | u1 => rw [hothers .u0 (by decide), hothers .u2 (by decide), hothers .u3 (by decide)]; omega
  | u2 => rw [hothers .u0 (by decide), hothers .u1 (by decide), hothers .u3 (by decide)]; omega
  | u3 => rw [hothers .u0 (by decide), hothers .u1 (by decide), hothers .u2 (by decide)]; omega

theorem unitAct_work_lt {u : UnitId} {s t : State} (hs : UnitsInv s) (hbusy : s.phase u = .busy)
    (h : unitAct u s = .next t) : work t < work s := by
  obtain ⟨hpos, t', hact, hless, hend⟩ := aBusyUnitAlwaysProgresses s u hs hbusy
  obtain rfl := Host.Outcome.next.inj (hact.symm.trans h)
  refine work_lt_of_frame (fun v hv => unitAct_sameUnit h hv) ?_
  obtain hless | ⟨hdone, -⟩ := hless
  · omega
  · rw [hend.mpr hdone]; exact hpos

/-- A state that a step leaves as it is stays so for the rest of the run. -/
theorem run_of_step_self {s : State} (h : step s = .next s) (k : Nat) : Host.Core.run core k s = .next s := by
  induction k with
  | zero => rfl
  | succ k ih => rw [run_succ_of_step k h, ih]

/-- With no move listed a step leaves the state, no unit being BUSY, or takes off work. -/
theorem step_nil_cases {s : State} (hmark : s.wasReset = true) (hs : UnitsInv s) (hrun : s.run = []) :
    (step s = .next s ∧ ∀ u, s.phase u ≠ .busy) ∨
    ∃ t, step s = .next t ∧ t.wasReset = true ∧ UnitsInv t ∧ t.run = [] ∧ work t < work s := by
  have hstep : step s = drain s := by rw [step_nil hrun, if_neg (by simp [hmark])]
  rw [hstep, drain]
  cases hfree : freeUnit s with
  | none => exact .inl ⟨rfl, freeUnit_none.mp hfree⟩
  | some u =>
    have hturn : UnitsInv { s with turns := s.turns + 1 } := hs
    obtain ⟨t, hact, -⟩ := unitAct_unitInv (unitsInv_iff.mp hturn u)
    obtain ⟨-, hrun', -, hmark', -⟩ := unitAct_sameAround hact
    have hbusy : s.phase u = .busy := freeUnit_some hfree
    exact .inr ⟨t, hact, hmark'.symm.trans hmark, unitAct_unitsInv hturn hact, hrun'.symm.trans hrun,
      unitAct_work_lt (s := { s with turns := s.turns + 1 }) hturn hbusy hact⟩

/-- Settles O45, by induction on the work left. -/
theorem everyTransactionEnds : Obligations.EveryTransactionEnds := by
  intro s hmark hs hrun
  induction hwork : work s using Nat.strong_induction_on generalizing s with
  | _ w ih =>
    obtain ⟨hself, hidle⟩ | ⟨x, hstep, hmark', hinv, hrun', hless⟩ := step_nil_cases hmark hs hrun
    · exact ⟨s, fun k => run_of_step_self hself _, hidle, hs⟩
    · obtain ⟨t, hend, hidle, ht⟩ := ih (work x) (hwork ▸ hless) x hmark' hinv hrun' rfl
      refine ⟨t, fun k => ?_, hidle, ht⟩
      have hfuel : w + k = work x + (w - work x - 1 + k) + 1 := by omega
      rw [hfuel, run_succ_of_step _ hstep, hend]

end Sys2Proof.Machine
end

section
/-! PROOFS. The exceptions family: the reason of a failing operation is the least condition that holds (R182, R184), and
which reasons each operation can raise (R183). -/

namespace Sys2Proof.Machine

open Sys2Proof.Safety

/-! ## Every operation takes the failure that START reports, and else runs its loop (R10, R161) -/

theorem b16enc_eq_startReason (bytes : List Byte) (T : List Sym) :
    ∃ out, b16enc bytes T = (startReason 16 1 bytes.length T false).elim (.ok out) .error := by
  obtain ⟨hempty, h⟩ | ⟨hne, hlen, h⟩ | ⟨hne, hlen, hdup, h⟩ | ⟨hne, hdistinct, hlen, h⟩ := b16enc_cases bytes T
  · exact ⟨[], by rw [h, hempty]; rfl⟩
  · exact ⟨[], by simp [h, startReason, hne, hlen]⟩
  · exact ⟨[], by simp [h, startReason, hne, hlen, hdup]⟩
  · exact ⟨b16encAll (lut16 T hlen) bytes, by simp [h, startReason, hne, hlen, hdistinct, Nat.mod_one]⟩

theorem b64enc_eq_startReason (bytes : List Byte) (T : List Sym) :
    ∃ out, b64enc bytes T = (startReason 65 1 bytes.length T false).elim (.ok out) .error := by
  obtain ⟨hempty, h⟩ | ⟨hne, hlen, h⟩ | ⟨hne, hlen, hdup, h⟩ | ⟨hne, hdistinct, hlen, h⟩ := b64enc_cases bytes T
  · exact ⟨[], by rw [h, hempty]; rfl⟩
  · exact ⟨[], by simp [h, startReason, hne, hlen]⟩
  · exact ⟨[], by simp [h, startReason, hne, hlen, hdup]⟩
  · exact ⟨b64encAll (lut64 T hlen) (padSym T hlen) bytes, by simp [h, startReason, hne, hlen, hdistinct, Nat.mod_one]⟩

theorem b16dec_eq_startReason (syms T : List Sym) : b16dec syms T =
    (startReason 16 2 syms.length T false).elim (b16decAll (sym2nib T) syms) .error := by
  simp only [b16dec, startReason, ← List.length_eq_zero_iff, Bool.false_eq_true, if_false]
  split_ifs <;> rfl

theorem b64dec_eq_startReason (syms T : List Sym) : b64dec syms T =
    (startReason 65 4 syms.length T (misplacedPadding T syms)).elim
      (b64decAll (sym2sext T) (padCount T syms) syms) .error := by
  simp only [b64dec, startReason, ← List.length_eq_zero_iff]
  split_ifs <;> rfl

/-! ## The least code (R184) -/

/-- An outcome that takes START's failure, and else that of `run`, fails with the least condition that holds, and with
what `run` fails with only when none does. -/
theorem leastCondition_or_run_fails {β : Type} {L gran n : Nat} {T : List Sym} {misplaced : Bool} {placed : Prop}
    (hplaced : n ≠ 0 → T.length = L → n % gran = 0 → (misplaced = false ↔ placed))
    {run : Except Reason (List β)} {r : Reason} (h : (startReason L gran n T misplaced).elim run .error = .error r) :
    LeastCondition (StartCondition L gran n T placed) (reasonCode r).toNat ∨
      (NoCondition (StartCondition L gran n T placed) ∧ run = .error r) := by
  cases hstart : startReason L gran n T misplaced with
  | none => exact .inr ⟨(startReason_eq_none_iff hplaced).mp hstart, by simpa [hstart] using h⟩
  | some r' =>
    obtain rfl : r' = r := by simpa [hstart] using h
    exact .inl ((startReason_eq_some_iff hplaced).mp hstart)

theorem valid_of_noCondition {L gran n : Nat} {T : List Sym} {placed : Prop}
    (h : NoCondition (StartCondition L gran n T placed)) : n ≠ 0 ∧ ValidTable L T ∧ n % gran = 0 ∧ placed :=
  ⟨h 1, ⟨not_not.mp (h 2), fun i j hij hj heq => h 3 ⟨i, j, hij, hj, heq⟩⟩, not_not.mp (h 4), not_not.mp (h 5)⟩

theorem b16enc_error_least {bytes : List Byte} {T : List Sym} {r : Reason} (h : b16enc bytes T = .error r) :
    LeastCondition (StartCondition 16 1 bytes.length T True) (reasonCode r).toNat := by
  obtain ⟨out, hout⟩ := b16enc_eq_startReason bytes T
  obtain hleast | ⟨-, hrun⟩ := leastCondition_or_run_fails no_padding_misplaced (hout ▸ h)
  · exact hleast
  · cases hrun

theorem b64enc_error_least {bytes : List Byte} {T : List Sym} {r : Reason} (h : b64enc bytes T = .error r) :
    LeastCondition (StartCondition 65 1 bytes.length T True) (reasonCode r).toNat := by
  obtain ⟨out, hout⟩ := b64enc_eq_startReason bytes T
  obtain hleast | ⟨-, hrun⟩ := leastCondition_or_run_fails no_padding_misplaced (hout ▸ h)
  · exact hleast
  · cases hrun

/-- When no condition holds, B16DEC can fail only on a symbol: with all of them known it succeeds. -/
theorem b16dec_error_least {syms T : List Sym} {r : Reason} (h : b16dec syms T = .error r) :
    LeastCondition (StartCondition 16 2 syms.length T True) (reasonCode r).toNat ∨
      (r = .unknownSymbol ∧ NoCondition (StartCondition 16 2 syms.length T True) ∧ ∃ x ∈ syms, x ∉ T) := by
  refine (leastCondition_or_run_fails no_padding_misplaced (b16dec_eq_startReason syms T ▸ h)).imp_right ?_
  rintro ⟨hno, hrun⟩
  refine ⟨b16decAll_error hrun, hno, ?_⟩
  by_contra! hknown
  obtain ⟨hne, hT, hmod, -⟩ := valid_of_noCondition hno
  obtain ⟨out, hout⟩ := (b16dec_succeeds_iff hT).mpr ⟨by omega, hmod, hknown⟩
  cases h.symm.trans hout

/-- When no condition holds, B64DEC can fail only on a symbol: with all of them known it succeeds. -/
theorem b64dec_error_least {syms T : List Sym} {r : Reason} (h : b64dec syms T = .error r) :
    LeastCondition (StartCondition 65 4 syms.length T (PaddingPlaced T syms)) (reasonCode r).toNat ∨
      (r = .unknownSymbol ∧ NoCondition (StartCondition 65 4 syms.length T (PaddingPlaced T syms)) ∧
        ∃ x ∈ syms, x ∉ T) := by
  refine (leastCondition_or_run_fails misplacedPadding_of_start (b64dec_eq_startReason syms T ▸ h)).imp_right ?_
  rintro ⟨hno, hrun⟩
  refine ⟨b64decAll_error hrun, hno, ?_⟩
  by_contra! hknown
  obtain ⟨hne, hT, hmod, hplaced⟩ := valid_of_noCondition hno
  obtain ⟨out, hout⟩ := (b64dec_succeeds_iff hT).mpr ⟨by omega, hmod, hplaced, hknown⟩
  cases h.symm.trans hout

/-- Settles O20: an operation takes what START reports, and the decoders' loops fail only on a symbol. -/
theorem leastReasonIsReported : Obligations.LeastReasonIsReported :=
  ⟨fun _ _ _ => b16enc_error_least, fun _ _ _ => b16dec_error_least, fun _ _ _ => b64enc_error_least,
    fun _ _ _ => b64dec_error_least⟩

/-! ## The reasons of each operation (R183) -/

/-- An encoder's input has any length and no padding, so conditions 4 and 5 never hold. -/
theorem reason_of_encoder_condition {L n : Nat} {T : List Sym} {r : Reason}
    (h : StartCondition L 1 n T True (reasonCode r).toNat) :
    r ∈ [Reason.emptyInput, .tableLength, .tableDuplicate] := by
  cases r with
  | emptyInput | tableLength | tableDuplicate => decide
  | ok | unknownSymbol => exact h.elim
  | inputLength => exact absurd (Nat.mod_one n) h
  | padding => exact absurd trivial h

/-- B16DEC's input has no padding, so condition 5 never holds. -/
theorem reason_of_b16dec_condition {L gran n : Nat} {T : List Sym} {r : Reason}
    (h : StartCondition L gran n T True (reasonCode r).toNat) :
    r ∈ [Reason.emptyInput, .tableLength, .tableDuplicate, .inputLength, .unknownSymbol] := by
  cases r with
  | emptyInput | tableLength | tableDuplicate | inputLength | unknownSymbol => decide
  | ok => exact h.elim
  | padding => exact absurd trivial h

theorem b16enc_raises_iff (r : Reason) :
    (∃ bytes T, b16enc bytes T = .error r) ↔ r ∈ [Reason.emptyInput, .tableLength, .tableDuplicate] := by
  constructor
  · rintro ⟨bytes, T, h⟩
    exact reason_of_encoder_condition (b16enc_error_least h).1
  · revert r
    simp only [List.forall_mem_cons]
    exact ⟨⟨[], [], rfl⟩, ⟨[0], [], rfl⟩, ⟨[0], List.replicate 16 0, rfl⟩, nofun⟩

theorem b64enc_raises_iff (r : Reason) :
    (∃ bytes T, b64enc bytes T = .error r) ↔ r ∈ [Reason.emptyInput, .tableLength, .tableDuplicate] := by
  constructor
  · rintro ⟨bytes, T, h⟩
    exact reason_of_encoder_condition (b64enc_error_least h).1
  · revert r
    simp only [List.forall_mem_cons]
    exact ⟨⟨[], [], rfl⟩, ⟨[0], [], rfl⟩, ⟨[0], List.replicate 65 0, rfl⟩, nofun⟩

/-- Code 4 on `0`, code 6 on a pair with the symbol 0, which is no entry of the default table. -/
theorem b16dec_raises_iff (r : Reason) : (∃ syms T, b16dec syms T = .error r) ↔
    r ∈ [Reason.emptyInput, .tableLength, .tableDuplicate, .inputLength, .unknownSymbol] := by
  constructor
  · rintro ⟨syms, T, h⟩
    obtain hleast | ⟨rfl, -⟩ := b16dec_error_least h
    · exact reason_of_b16dec_condition hleast.1
    · decide
  · revert r
    simp only [List.forall_mem_cons]
    exact ⟨⟨[], [], rfl⟩, ⟨[0], [], rfl⟩, ⟨[0], List.replicate 16 0, rfl⟩, ⟨[0x30], defaultB16, rfl⟩,
      ⟨[0x30, 0], defaultB16, rfl⟩, nofun⟩

/-- Code 4 on `A`, code 5 on `=AAA`, code 6 on a group with the symbol 0, which is no entry of the default table. -/
theorem b64dec_raises_iff (r : Reason) : (∃ syms T, b64dec syms T = .error r) ↔
    r ∈ [Reason.emptyInput, .tableLength, .tableDuplicate, .inputLength, .padding, .unknownSymbol] := by
  constructor
  · rintro ⟨syms, T, h⟩
    cases r with
    | ok => exact absurd h (b64dec_ne_error_ok syms T)
    | _ => decide
  · revert r
    simp only [List.forall_mem_cons]
    exact ⟨⟨[], [], rfl⟩, ⟨[0], [], rfl⟩, ⟨[0], List.replicate 65 0, rfl⟩, ⟨[0x41], defaultB64, rfl⟩,
      ⟨[0x3D, 0x41, 0x41, 0x41], defaultB64, rfl⟩, ⟨[0x41, 0x41, 0x41, 0], defaultB64, rfl⟩, nofun⟩

/-- Settles O21: a reason outside an operation's list names a condition that never holds for it, and each reason of the
list has an input that raises it. -/
theorem reasonsOfEachOperation : Obligations.ReasonsOfEachOperation :=
  ⟨b16enc_raises_iff, b16dec_raises_iff, b64enc_raises_iff, b64dec_raises_iff⟩

end Sys2Proof.Machine
end

section
/-! PROOFS. The reset and hazards family: where a long input may be processed in pieces (R206), the operands that a
command is refused for (R6, R212), and a run that does not begin with RESET (R201, R212). -/

namespace Sys2Proof.Machine

open Sys2Proof.Safety

/-! ## Processing in pieces (R103 (d), R131 (c), R206): each loop splits at a granule boundary -/

theorem b16enc_append {x y : List Byte} {T a b : List Sym} (hx : b16enc x T = .ok a) (hy : b16enc y T = .ok b) :
    b16enc (x ++ y) T = .ok (a ++ b) := by
  obtain ⟨hne, hdistinct, hlen, rfl⟩ := b16enc_ok_inv hx
  obtain ⟨-, -, -, rfl⟩ := b16enc_ok_inv hy
  rw [b16enc_ok hlen hdistinct (List.append_ne_nil_of_left_ne_nil hne y), b16encAll_append]

theorem b64enc_append {x y : List Byte} {T a b : List Sym} (hmod : x.length % 3 = 0) (hx : b64enc x T = .ok a)
    (hy : b64enc y T = .ok b) : b64enc (x ++ y) T = .ok (a ++ b) := by
  obtain ⟨hne, hdistinct, hlen, rfl⟩ := b64enc_ok_inv hx
  obtain ⟨-, -, -, rfl⟩ := b64enc_ok_inv hy
  rw [b64enc_ok hlen hdistinct (List.append_ne_nil_of_left_ne_nil hne y), b64encAll_append _ _ x y hmod]

theorem b16dec_append {x y T : List Sym} {a b : List Byte} (hx : b16dec x T = .ok a) (hy : b16dec y T = .ok b) :
    b16dec (x ++ y) T = .ok (a ++ b) := by
  obtain ⟨hne, hlen, hdistinct, hevenx, hrunx⟩ := b16dec_ok_inv hx
  obtain ⟨-, -, -, heveny, hruny⟩ := b16dec_ok_inv hy
  have heven : (x ++ y).length % 2 = 0 := by
    rw [List.length_append]
    omega
  rw [b16dec_run hlen hdistinct (List.append_ne_nil_of_left_ne_nil hne y) heven, b16decAll_append _ x y hevenx,
    hrunx, hruny]
  rfl

/-- R142: a successful input of B64DEC has its padding in exactly the last npad positions. -/
theorem padding_iff_of_b64dec_ok {syms T : List Sym} {out : List Byte} (h : b64dec syms T = .ok out) {i : Nat}
    (hi : i < syms.length) : syms[i]? = T[64]? ↔ syms.length ≤ i + (padCount T syms).val := by
  obtain ⟨hmin, -, hplaced, -⟩ := (b64dec_succeeds_iff (b64dec_ok_valid h)).mp ⟨out, h⟩
  exact padding_iff_of_placed (by omega) hplaced hi

/-- Symbols without padding put in front move the padding at the end, and change nothing else of it. -/
theorem padding_iff_append {T x y : List Sym} {p : Nat} (hp : p ≤ y.length)
    (hx : ∀ i, i < x.length → x[i]? ≠ T[64]?)
    (hy : ∀ i, i < y.length → (y[i]? = T[64]? ↔ y.length ≤ i + p)) {i : Nat} (hi : i < (x ++ y).length) :
    (x ++ y)[i]? = T[64]? ↔ (x ++ y).length ≤ i + p := by
  rw [List.length_append] at hi ⊢
  by_cases hix : i < x.length
  · rw [List.getElem?_append_left hix]
    exact iff_of_false (hx i hix) (by omega)
  · rw [List.getElem?_append_right (by omega), hy (i - x.length) (by omega)]
    omega

/-- The first piece is all full groups, so the whole input has the second piece's padding. -/
theorem b64dec_append {x y T : List Sym} {a b : List Byte} (hpad : padCount T x = 0) (hx : b64dec x T = .ok a)
    (hy : b64dec y T = .ok b) : b64dec (x ++ y) T = .ok (a ++ b) := by
  obtain ⟨-, hlen, hdistinct, hmodx, -, hrunx⟩ := b64dec_ok_inv hx
  obtain ⟨hney, -, -, hmody, -, hruny⟩ := b64dec_ok_inv hy
  have hp := (padCount T y).isLt
  have hmin : 4 ≤ y.length := by
    have hpos := List.length_pos_iff.mpr hney
    omega
  have hnone : ∀ i, i < x.length → x[i]? ≠ T[64]? := fun i hi => by
    rw [Ne, padding_iff_of_b64dec_ok hx hi, hpad]
    exact Nat.not_le.mpr hi
  have hpadding : ∀ i, i < (x ++ y).length →
      ((x ++ y)[i]? = T[64]? ↔ (x ++ y).length ≤ i + (padCount T y).val) := fun _ =>
    padding_iff_append (by omega) hnone fun _ => padding_iff_of_b64dec_ok hy
  have hlength : (x ++ y).length = x.length + y.length := List.length_append
  have hcount : padCount T (x ++ y) = padCount T y := Fin.ext (padCount_of_padding_iff hp (by omega) hpadding)
  have hplaced : misplacedPadding T (x ++ y) = false :=
    (misplacedPadding_eq_false_iff_placed hlen (by omega)).mpr (placed_of_padding_iff hp hpadding)
  rw [hpad] at hrunx
  rw [b64dec_run hlen hdistinct (List.append_ne_nil_of_right_ne_nil x hney) (by omega) hplaced, hcount,
    b64decAll_append _ _ x y hmodx hney, hrunx, hruny]
  rfl

/-- Settles O14: the first piece ends at a granule boundary, and each loop splits there. -/
theorem piecewiseLaws : Obligations.PiecewiseLaws :=
  ⟨fun _ _ _ _ _ => b16enc_append, fun _ _ _ _ _ => b16dec_append, fun _ _ _ _ _ => b64enc_append,
    fun _ _ _ _ _ => b64dec_append⟩

/-! ## Operands beyond the bounds (R6, R212, U7, U16) -/

theorem tableRefusal_eq_some {pr : Config.Params} {d : Bool} {tbl : List Sym} {r : Refusal}
    (h : tableRefusal pr d tbl = some r) : r = .tableTooLong ∨ r = .symbolTooWide := by
  unfold tableRefusal at h
  split_ifs at h
  · exact .inl (Option.some.inj h).symm
  · exact .inr (Option.some.inj h).symm

theorem bytesRefusal_eq_some {pr : Config.Params} {inB : List Byte} {r : Refusal} (h : bytesRefusal pr inB = some r) :
    r = .inputTooLong := by
  unfold bytesRefusal at h
  split_ifs at h
  exact (Option.some.inj h).symm

theorem symsRefusal_eq_some {pr : Config.Params} {inS : List Sym} {r : Refusal} (h : symsRefusal pr inS = some r) :
    r = .inputTooLong ∨ r = .symbolTooWide := by
  unfold symsRefusal at h
  split_ifs at h
  · exact .inl (Option.some.inj h).symm
  · exact .inr (Option.some.inj h).symm

theorem encodeRefusal_eq_some {pr : Config.Params} {d : Bool} {p : Ports} {r : Refusal}
    (h : encodeRefusal pr d p = some r) : r = .tableTooLong ∨ r = .symbolTooWide ∨ r = .inputTooLong := by
  obtain htable | ⟨-, hbytes⟩ := Option.or_eq_some_iff.mp h
  · exact (tableRefusal_eq_some htable).imp_right .inl
  · exact .inr (.inr (bytesRefusal_eq_some hbytes))

theorem decodeRefusal_eq_some {pr : Config.Params} {d : Bool} {p : Ports} {r : Refusal}
    (h : decodeRefusal pr d p = some r) : r = .tableTooLong ∨ r = .symbolTooWide ∨ r = .inputTooLong := by
  obtain htable | ⟨-, hsyms⟩ := Option.or_eq_some_iff.mp h
  · exact (tableRefusal_eq_some htable).imp_right .inl
  · exact .inr (symsRefusal_eq_some hsyms).symm

/-- After RESET START's gate refuses only for the operands. -/
theorem startGate_refused {s taken : State} {ph : Phase} {bad : Option Refusal} {r : Refusal}
    (hmark : s.wasReset = true) (h : startGate s ph bad taken = .refused r) : bad = some r := by
  by_cases hidle : ph = .idle
  · cases bad with
    | none => simp [startGate_taken hmark hidle rfl] at h
    | some r' => simpa [startGate, hmark, hidle] using h
  · simp [startGate_dropped hmark hidle] at h

/-- After RESET START's gate at an IDLE unit answers exactly when nothing is wrong with the operands. -/
theorem startGate_answers_iff {s taken : State} {ph : Phase} {bad : Option Refusal} (hmark : s.wasReset = true)
    (hidle : ph = .idle) : (∃ t, startGate s ph bad taken = .next t) ↔ bad = none := by
  constructor
  · rintro ⟨t, h⟩
    obtain ⟨-, ⟨hbusy, -⟩ | ⟨-, hbad, -⟩⟩ := startGate_next h
    · exact absurd hidle hbusy
    · exact hbad
  · exact fun hbad => ⟨taken, startGate_taken hmark hidle hbad⟩

/-- Settles O24: the gate refuses exactly what the operand checks report. -/
theorem operandsBeyondTheBoundsAreRefused : Obligations.OperandsBeyondTheBoundsAreRefused := by
  constructor
  · rintro i d s hmark hidle (rfl | rfl) <;>
      exact ⟨(startGate_answers_iff hmark hidle).trans (encodeRefusal_none d s),
        fun r h => encodeRefusal_eq_some (startGate_refused hmark h)⟩
  · rintro i d s hmark hidle (rfl | rfl) <;>
      exact ⟨(startGate_answers_iff hmark hidle).trans (decodeRefusal_none d s),
        fun r h => decodeRefusal_eq_some (startGate_refused hmark h)⟩

/-! ## Before the first RESET (R201, R212, U10) -/

theorem exec_before_reset {s : State} (hmark : s.wasReset = false) (i : Instr) : exec i s = .refused .beforeReset := by
  cases i <;> exact if_pos hmark

theorem step_before_reset {s : State} (hmark : s.wasReset = false)
    (hrun : ∀ p rest, s.run = .host p :: rest → p.reset = false) : step s = .refused .beforeReset := by
  match h : s.run with
  | .host p :: rest => rw [step_host h, if_pos (by simp [hrun p rest h, hmark])]
  | .unit u :: rest => rw [step_unit h, if_pos hmark]
  | [] => rw [step_nil h, if_pos hmark]

/-- Settles O38: the gate refuses every command, and a step every move that leaves the mark unset. -/
theorem nothingRunsBeforeTheFirstReset : Obligations.NothingRunsBeforeTheFirstReset :=
  fun _ hmark => ⟨exec_before_reset hmark, step_before_reset hmark⟩

end Sys2Proof.Machine
end
